-- ==== Sys2Proof/Word.lean ====
section
/-! DEFINITION. The trit, the trit sequence and the word: the types of the layers Trit, Trits and Register
(00_scope.md R3, R10, R11; 41_trits.md R120). What is computed on them stands under Machine/. -/

namespace Sys2Proof

/-- One trit: exactly one of three values (R10). -/
inductive Trit where
  | negative
  | zero
  | positive
  deriving DecidableEq, Repr

/-- A trit sequence of any finite length. The list index is the significance: the head of the list is
`t[0]`, the least significant trit (R11, D1). Text is written most significant trit first (R133). -/
abbrev Trits := List Trit

/-- A word: the fixed-width type of registers, the PC, memory and the word units (R120), a type of its own
beside `Trits`. Its width is the machine's `W`; that a word has exactly `W` trits is part of
`State.wf`, which every step keeps. -/
structure Word where
  trits : Trits
  deriving DecidableEq, Repr

/-- The errors raised to the caller of a library-level operation (60_exceptions.md R306, R307). -/
inductive LibError where
  /-- Malformed trit text (R134). -/
  | decodeError
  /-- A value that does not fit its width (R159, R165, R166, R180). -/
  | overflowError
  deriving DecidableEq, Repr

end Sys2Proof
end

