-- ==== Sys2Proof/Machine/Trit.lean ====
section
/-! DEFINITION. The single-trit units of 40_trit.md: TNEG/TNOT, the ternary full adder TFA, TAND and TOR. -/

namespace Sys2Proof

/-- The signed value of a trit, -1, 0 or +1 (R10, R100). -/
def Trit.toInt : Trit → Int
  | .negative => -1
  | .zero => 0
  | .positive => 1

/-- The trit with the sign of an integer. -/
def Trit.ofSign (v : Int) : Trit :=
  if v < 0 then .negative else if v = 0 then .zero else .positive

/-- `negate(t)`, the unit TNEG (R101). -/
def Trit.negate : Trit → Trit
  | .negative => .positive
  | .zero => .zero
  | .positive => .negative

/-- `add_with_carry(a, b, carry_in) = (sum, carry_out)`, the ternary full adder TFA, by the formula of
R102: the sum is `a + b + cin` reduced to -1, 0 or +1 modulo 3, the carry the exact quotient. -/
def Trit.addWithCarry (a b cin : Trit) : Trit × Trit :=
  let s := a.toInt + b.toInt + cin.toInt
  let sum := (s + 1) % 3 - 1
  (Trit.ofSign sum, Trit.ofSign ((s - sum) / 3))

/-- `and(a, b) = min(a, b)` in the order `- < 0 < +`, the unit TAND (R106). -/
def Trit.and (a b : Trit) : Trit := if a.toInt ≤ b.toInt then a else b

/-- `or(a, b) = max(a, b)` in the order `- < 0 < +`, the unit TOR (R107). -/
def Trit.or (a b : Trit) : Trit := if a.toInt ≤ b.toInt then b else a

/-- `not(a) = negate(a)`, the unit TNOT (R108). -/
def Trit.not (a : Trit) : Trit := a.negate

end Sys2Proof
end

