-- ==== Sys2Proof/Machine/Sequence.lean ====
section
/-! DEFINITION. Trit sequences of any length (41_trits.md): slicing and extension, the ripple-carry adder,
negation, the shift-and-add multiplier, the Kleene gates lifted to sequences, and the text form. -/

namespace Sys2Proof

/-- `0^k` (R12). -/
def Trits.zeros (k : Nat) : Trits := List.replicate k .zero

/-- `t[hi:lo]` (R12): the trits `t[lo] .. t[hi]`, for `hi >= lo`. -/
def Trits.slice (t : Trits) (hi lo : Nat) : Trits := (t.drop lo).take (hi + 1 - lo)

/-- `a ++ b` of R12, with `a` in the more significant positions. -/
def Trits.concat (a b : Trits) : Trits := List.append b a

/-- `sext_N(t)`: ZERO trits on the most significant side up to length `n` (R14). A sequence that is
already longer is unchanged. -/
def Trits.sext (n : Nat) (t : Trits) : Trits := t ++ List.replicate (n - t.length) .zero

/-- `uext_N(t)`: NEGATIVE trits on the most significant side up to length `n` (R14, C5). -/
def Trits.uext (n : Nat) (t : Trits) : Trits := t ++ List.replicate (n - t.length) .negative

/-- All trits ZERO: the test of a must-be-zero field and of a product's high half. -/
def Trits.isZero (t : Trits) : Bool := t.all fun x => decide (x = .zero)

/-- Both operands at the longer one's length, aligned at their least significant trits (R121). -/
def Trits.align (a b : Trits) : Trits × Trits :=
  let n := max a.length b.length
  (Trits.sext n a, Trits.sext n b)

/-- A chain of full adders over aligned operands, least significant pair first: the sum trits and the
carry out of the last adder (R122, R124). -/
def Trits.ripple : List (Trit × Trit) → Trit → Trits × Trit
  | [], c => ([], c)
  | (a, b) :: rest, c =>
    let d := Trit.addWithCarry a b c
    let r := Trits.ripple rest d.2
    (d.1 :: r.1, r.2)

/-- `add(a, b)`: the ripple-carry sum with ZERO carried in; a nonzero final carry becomes a new leading
trit (R122, D34). -/
def Trits.add (a b : Trits) : Trits :=
  let p := Trits.align a b
  let r := Trits.ripple (p.1.zip p.2) .zero
  if r.2 = .zero then r.1 else r.1 ++ [r.2]

/-- `NEG(t)`: trit-wise, no carry, no length change (R126). -/
def Trits.negate (t : Trits) : Trits := t.map Trit.negate

/-- `subtract(a, b) = add(a, NEG(b))` (R163). -/
def Trits.subtract (a b : Trits) : Trits := Trits.add a (Trits.negate b)

/-- `acc` plus `pp`, keeping the `n` low trits (R128). -/
def Trits.accumulate (n : Nat) (acc pp : Trits) : Trits :=
  (Trits.ripple (acc.zip (Trits.sext n pp)) .zero).1

/-- The loop of R128 over the trits of `b` from position `i` on. -/
def Trits.shiftAdd (n : Nat) (a : Trits) : Nat → Trits → Trits → Trits
  | _, [], acc => acc
  | i, t :: rest, acc =>
    Trits.shiftAdd n a (i + 1) rest
      (match t with
       | .positive => Trits.accumulate n acc (Trits.concat a (Trits.zeros i))
       | .negative => Trits.accumulate n acc (Trits.concat (Trits.negate a) (Trits.zeros i))
       | .zero => acc)

/-- `multiply(a, b)`: shift-and-add into an accumulator of `len(a) + len(b)` trits (R128, D24). -/
def Trits.multiply (a b : Trits) : Trits :=
  let n := a.length + b.length
  Trits.shiftAdd n a 0 b (Trits.zeros n)

/-- `AND(a, b)`: the gate at every position of the aligned operands (R130, D33). -/
def Trits.and (a b : Trits) : Trits :=
  let p := Trits.align a b
  List.zipWith Trit.and p.1 p.2

/-- `OR(a, b)` (R130, D33). -/
def Trits.or (a b : Trits) : Trits :=
  let p := Trits.align a b
  List.zipWith Trit.or p.1 p.2

/-- `NOT(a) = NEG(a)` (R130). -/
def Trits.not (a : Trits) : Trits := Trits.negate a

/-- The canonical character of a trit (R133). -/
def Trit.toChar : Trit → Char
  | .negative => '-'
  | .zero => '0'
  | .positive => '+'

/-- The trit a character stands for, if it is one of `-`, `0`, `+` (R134). -/
def Trit.ofChar (c : Char) : Option Trit :=
  if c = '-' then some .negative else if c = '0' then some .zero else if c = '+' then some .positive else none

/-- `to_string(t)` as a list of characters, most significant trit first (R133). -/
def Trits.toChars (t : Trits) : List Char := (t.map Trit.toChar).reverse

/-- `from_string(s)` on a list of characters: every character a trit, most significant first, or
`DecodeError` (R134, D26). -/
def Trits.ofChars (s : List Char) : Except LibError Trits :=
  match s.reverse.mapM Trit.ofChar with
  | some t => .ok t
  | none => .error .decodeError

/-- `to_string` (R133). -/
def Trits.toText (t : Trits) : String := String.ofList (Trits.toChars t)

/-- `from_string` (R134). -/
def Trits.ofText (s : String) : Except LibError Trits := Trits.ofChars s.toList

end Sys2Proof
end

