-- ==== Sys2Proof/Machine/Integer.lean ====
section
/-! DEFINITION. The signed and unsigned views of a trit sequence, the conversions back, the sign, when a
value fits a width, and arithmetic on the views (42_integer.md). -/

namespace Sys2Proof

/-- `MAXPOS(n) = (3^n - 1) / 2` (R13). -/
def maxPos (n : Nat) : Nat := (3 ^ n - 1) / 2

/-- `Int(t)`: the signed value, the sum of `t[i] * 3^i` (R150, C4). -/
def Trits.int : Trits → Int
  | [] => 0
  | t :: rest => t.toInt + 3 * Trits.int rest

/-- `UInt(t)`: the trits relabelled -1, 0, +1 to the digits 0, 1, 2 and read in base 3 (R158, D3). -/
def Trits.uint : Trits → Nat
  | [] => 0
  | t :: rest => (t.toInt + 1).toNat + 3 * Trits.uint rest

/-- The digit of `v` at the least significant position: `v mod 3`, with 2 read as -1 (R154). -/
def lowDigit (v : Int) : Int := if v % 3 = 2 then -1 else v % 3

/-- The conversion loop of R154, for at most `fuel` digits. -/
def canonLoop : Nat → Int → Trits
  | 0, _ => []
  | fuel + 1, v =>
    if v = 0 then [] else Trit.ofSign (lowDigit v) :: canonLoop fuel ((v - lowDigit v) / 3)

/-- `canon(v)`: the shortest sequence whose `Int` value is `v`; empty for 0 (R153, R154, D2). `|v|` rounds
are enough, since every round makes `|v|` smaller. -/
def canon (v : Int) : Trits := canonLoop v.natAbs v

/-- `to_trits(v, n)`: `canon(v)` padded with ZERO trits to at least `n` trits (R154). -/
def toTrits (v : Int) (n : Nat) : Trits := Trits.sext n (canon v)

/-- The `n` base-3 digits of `v`, each digit `d` as the trit `d - 1` (R159). -/
def utritsLoop : Nat → Nat → Trits
  | 0, _ => []
  | n + 1, v => Trit.ofSign ((v % 3 : Nat) - 1) :: utritsLoop n (v / 3)

/-- `to_utrits(v, n)`, an `OverflowError` outside `0 .. 3^n - 1` (R159, C8). -/
def toUtrits (v : Int) (n : Nat) : Except LibError Trits :=
  if 0 ≤ v ∧ v ≤ (3 ^ n - 1 : Nat) then .ok (utritsLoop n v.toNat) else .error .overflowError

/-- `sign(t)`: the most significant nonzero trit, ZERO if there is none (R160). -/
def Trits.sign : Trits → Trit
  | [] => .zero
  | t :: rest =>
    match Trits.sign rest with
    | .zero => t
    | s => s

/-- A signed value fits in `n` trits when `|v| <= MAXPOS(n)` (R162). -/
def fits (v : Int) (n : Nat) : Bool := decide (v.natAbs ≤ maxPos n)

/-- An unsigned value fits in `n` trits when `0 <= v <= 3^n - 1` (R162). -/
def fitsUnsigned (v : Int) (n : Nat) : Bool := decide (0 ≤ v ∧ v ≤ (3 ^ n - 1 : Nat))

/-- `compare(a, b)` for the `Int` view (R164). -/
def Trits.compare (a b : Trits) : Trit := Trits.sign (Trits.subtract a b)

/-- `compare` for the `UInt` view: the sign of `UInt(a) - UInt(b)` (R164). -/
def Trits.compareUnsigned (a b : Trits) : Trit :=
  Trit.ofSign ((Trits.uint a : Int) - (Trits.uint b : Int))

/-- `UInt` arithmetic by value: both operands widened with NEGATIVE trits to the longer length, the
integer result converted back, an `OverflowError` when it does not fit (R165, C6, D25). -/
def Trits.uintOp (op : Int → Int → Int) (a b : Trits) : Except LibError Trits :=
  let n := max a.length b.length
  toUtrits (op (Trits.uint (Trits.uext n a)) (Trits.uint (Trits.uext n b))) n

/-- `UInt` add (R165). -/
def Trits.addUnsigned (a b : Trits) : Except LibError Trits := Trits.uintOp (· + ·) a b

/-- `UInt` subtract (R165). -/
def Trits.subtractUnsigned (a b : Trits) : Except LibError Trits := Trits.uintOp (· - ·) a b

/-- `UInt` multiply (R165). -/
def Trits.multiplyUnsigned (a b : Trits) : Except LibError Trits := Trits.uintOp (· * ·) a b

end Sys2Proof
end

