-- ==== Sys2Proof/Machine/Datapath.lean ====
section
/-! DEFINITION. The word units of the block (41_trits.md R124 to R135): ADDW, NEGW, MULW, ANDW, ORW, NOTW,
SGNW, the fixed-width arithmetic built on them (42_integer.md R166), and the register write check
(43_processor_cycle.md R180, R181). All are total functions of their inputs and have no state. -/

namespace Sys2Proof

/-- The word `0^W`. -/
def Word.zero (n : Nat) : Word := ⟨Trits.zeros n⟩

/-- `Int` of a word (R150). -/
def Word.int (w : Word) : Int := Trits.int w.trits

/-- `UInt` of a word (R158). -/
def Word.uint (w : Word) : Nat := Trits.uint w.trits

/-- `sext_W(t)` as a word, for a field `t` of at most `W` trits (R14). -/
def Word.sext (n : Nat) (t : Trits) : Word := ⟨Trits.sext n t⟩

/-- `to_trits(v, W)` as a word; `W` trits long when `v` fits (R154, R162). -/
def Word.ofInt (n : Nat) (v : Int) : Word := ⟨toTrits v n⟩

/-- The outputs `sum` and `cout` of ADDW (R135). -/
structure AdderOut where
  sum : Word
  cout : Trit
  deriving DecidableEq, Repr

/-- `ADDW(a, b, cin)`, the ripple-carry word adder (R124). -/
def addw (a b : Word) (cin : Trit) : AdderOut :=
  let r := Trits.ripple (a.trits.zip b.trits) cin
  ⟨⟨r.1⟩, r.2⟩

/-- NEGW: trit-wise negation of a word (R126). -/
def negw (a : Word) : Word := ⟨Trits.negate a.trits⟩

/-- The outputs of MULW: the full product `p`, its low half and its high half (R129). -/
structure MultiplierOut where
  p : Trits
  lo : Word
  hi : Trits
  deriving DecidableEq, Repr

/-- `MULW(a, b)`: `p = to_trits(Int(a) * Int(b), 2W)`, split at `W` (R129, D29). The width is that of the
operands, which are words of equal length in every machine (DESIGN CHOICE for other operands, log entry 12, safe). -/
def mulw (a b : Word) : MultiplierOut :=
  let n := a.trits.length
  let p := toTrits (a.int * b.int) (n + b.trits.length)
  ⟨p, ⟨p.take n⟩, p.drop n⟩

/-- ANDW: `min` at every position (R131). -/
def andw (a b : Word) : Word := ⟨List.zipWith Trit.and a.trits b.trits⟩

/-- ORW: `max` at every position (R131). -/
def orw (a b : Word) : Word := ⟨List.zipWith Trit.or a.trits b.trits⟩

/-- NOTW = NEGW (R108, R131). -/
def notw (a : Word) : Word := negw a

/-- SGNW: the sign of a word (R160). -/
def sgnw (a : Word) : Trit := Trits.sign a.trits

/-- The register write check on an integer value (R180): the word `to_trits(v, W)` when `v` fits in `W`
trits, an `OverflowError` otherwise. -/
def regWord (n : Nat) (v : Int) : Except LibError Word :=
  if fits v n then .ok (Word.ofInt n v) else .error .overflowError

/-- The register write check on a sequence of any length: the write of its `Int` value (R181, D27). -/
def regWordOfTrits (n : Nat) (t : Trits) : Except LibError Word := regWord n (Trits.int t)

/-- A library-level write of the value `v` to a register that holds `old`: what the register holds
afterwards, and the error if the write was rejected (R180, R307: the prior value is kept). -/
def writeRegister (n : Nat) (old : Word) (v : Int) : Word × Option LibError :=
  match regWord n v with
  | .ok w => (w, none)
  | .error e => (old, some e)

/-- The same for a value given as a sequence (R181). -/
def writeRegisterTrits (n : Nat) (old : Word) (t : Trits) : Word × Option LibError :=
  writeRegister n old (Trits.int t)

/-- Fixed-width add (R166): the sum by ADDW, an `OverflowError` when its carry out is nonzero. -/
def Word.add (a b : Word) : Except LibError Word :=
  let r := addw a b .zero
  if r.cout = .zero then .ok r.sum else .error .overflowError

/-- Fixed-width subtract by ADDW with NEGW (R166). -/
def Word.subtract (a b : Word) : Except LibError Word := Word.add a (negw b)

/-- Fixed-width multiply by MULW (R166). -/
def Word.multiply (a b : Word) : Except LibError Word :=
  let r := mulw a b
  if Trits.isZero r.hi then .ok r.lo else .error .overflowError

end Sys2Proof
end

