-- ==== Sys2Proof/Syntax.lean ====
section
/-! DEFINITION. The instructions of T3: one constructor per row of spec/opcode_table.json, the closed enumeration
of operations, and the operand kinds (30_encoding.md R70, R71, R78). -/

namespace Sys2Proof

/-- A decoded instruction (R71). Register fields `a b c` are the `Int` of their two-trit field, -4 .. +4,
not yet checked against `NREG` (R75); `k` and `kb` are the `Int` of the word fields `K` and `KB` (R76);
`s` is the branch condition trit (R77). -/
inductive Instr where
  /-- HALT (R266). -/
  | halt
  /-- LOADI: `x[a] <- sext_W(K)` (R210). -/
  | loadi (a k : Int)
  /-- LOADM: `x[a] <- mem[k]` (R213). -/
  | loadm (a k : Int)
  /-- STORE: `mem[k] <- x[a]` (R216). -/
  | store (a k : Int)
  /-- MOVE: `x[a] <- x[b]` (R219). -/
  | move (a b : Int)
  /-- ADD: `x[a] <- x[b] + x[c]` (R230). -/
  | add (a b c : Int)
  /-- SUB: `x[a] <- x[b] - x[c]` (R233). -/
  | sub (a b c : Int)
  /-- MUL: `x[a] <- x[b] * x[c]` (R236). -/
  | mul (a b c : Int)
  /-- NEG: `x[a] <- NEG(x[b])` (R239). -/
  | neg (a b : Int)
  /-- AND: `x[a] <- AND(x[b], x[c])` (R250). -/
  | and (a b c : Int)
  /-- OR: `x[a] <- OR(x[b], x[c])` (R253). -/
  | or (a b c : Int)
  /-- JMP: `pc <- sext_W(K)` (R260). -/
  | jmp (k : Int)
  /-- JS: `pc <- sext_W(KB)` if `sign(x[a]) = s` (R263). -/
  | js (a : Int) (s : Trit) (kb : Int)
  /-- SGN: `x[a] <- sext_W(sign(x[b]))` (R242). -/
  | sgn (a b : Int)
  deriving DecidableEq, Repr

/-- The closed enumeration of operations (R70, R78). -/
inductive Opcode where
  | halt | loadi | loadm | store | move | add | sub | mul | neg | and | or | jmp | js | sgn
  deriving DecidableEq, Repr

/-- The six instruction formats (R74). -/
inductive Format where
  | n | r | r2 | i | j | b
  deriving DecidableEq, Repr

/-- The closed set of operand kinds (R71). A descriptor holds the `Int` of its field where R71 says `immediate Trits`
(DEDUCED, log entry 15, safe). -/
inductive Operand where
  /-- A register index. -/
  | register (index : Int)
  /-- A trit or a number taken from the instruction itself. -/
  | immediate (value : Int)
  /-- An absolute word address or jump target. -/
  | address (target : Int)
  deriving DecidableEq, Repr

/-- Why a word is no instruction (R80): its opcode value is reserved, or a must-be-zero field is not zero. -/
inductive InvalidReason where
  | reservedOpcode
  | nonzeroField
  deriving DecidableEq, Repr

/-- What decoding gives: an instruction or the well-defined `Invalid` (R70). -/
inductive Decoded where
  | instr (i : Instr)
  | invalid (why : InvalidReason)
  deriving DecidableEq, Repr

end Sys2Proof
end

