-- ==== Sys2Proof/Decode.lean ====
section
/-! DEFINITION. The decoder, total on every word (30_encoding.md R70, R73 to R80), and AFTER it the encoder,
written from the same formats. Last come the two-bits-a-trit reading of a word given as a number, which the
host's questions use, and `decodeTableWord`. -/

namespace Sys2Proof

/-- The opcodes in the order of the opcode map (R78). -/
def Opcode.all : List Opcode :=
  [.halt, .loadi, .loadm, .store, .move, .add, .sub, .mul, .neg, .and, .or, .jmp, .js, .sgn]

/-- `op`, the `Int` of the field OP (R78). -/
def Opcode.code : Opcode → Int
  | .halt => 0
  | .loadi => 1
  | .loadm => 2
  | .store => 3
  | .move => 4
  | .add => 5
  | .sub => 6
  | .mul => 7
  | .neg => 8
  | .and => 9
  | .or => 10
  | .jmp => 11
  | .js => 12
  | .sgn => 13

/-- The format of each opcode (R74, R78). -/
def Opcode.format : Opcode → Format
  | .halt => .n
  | .loadi => .i
  | .loadm => .i
  | .store => .i
  | .move => .r2
  | .add => .r
  | .sub => .r
  | .mul => .r
  | .neg => .r2
  | .and => .r
  | .or => .r
  | .jmp => .j
  | .js => .b
  | .sgn => .r2

/-- The opcode with value `op`; none for the 13 reserved (negative) values (R78, R80, D11). -/
def Opcode.ofCode (op : Int) : Option Opcode := Opcode.all.find? fun o => decide (o.code = op)

/-- `OP = w[W-1:W-3]` (R73). -/
def fieldOp (width : Nat) (w : Word) : Trits := Trits.slice w.trits (width - 1) (width - 3)

/-- `A = w[W-4:W-5]` (R74); the same trits are the field ZA of format J. -/
def fieldA (width : Nat) (w : Word) : Trits := Trits.slice w.trits (width - 4) (width - 5)

/-- `B = w[W-6:W-7]` (R74). -/
def fieldB (width : Nat) (w : Word) : Trits := Trits.slice w.trits (width - 6) (width - 7)

/-- `C = w[W-8:W-9]` (R74). -/
def fieldC (width : Nat) (w : Word) : Trits := Trits.slice w.trits (width - 8) (width - 9)

/-- `K = w[W-6:0]` (R74). -/
def fieldK (width : Nat) (w : Word) : Trits := Trits.slice w.trits (width - 6) 0

/-- `S = w[W-6]`, one trit (R74, R77). -/
def fieldS (width : Nat) (w : Word) : Trit := w.trits.getD (width - 6) .zero

/-- `KB = w[W-7:0]` (R74). -/
def fieldKB (width : Nat) (w : Word) : Trits := Trits.slice w.trits (width - 7) 0

/-- The must-be-zero requirement of a format (R74, R79, D10): ZN, Z (empty when `W = 9`), Z2 or ZA. -/
def mustBeZero (width : Nat) (w : Word) : Format → Bool
  | .n => Trits.isZero (Trits.slice w.trits (width - 4) 0)
  | .r => decide (width = 9) || Trits.isZero (Trits.slice w.trits (width - 10) 0)
  | .r2 => Trits.isZero (Trits.slice w.trits (width - 8) 0)
  | .i => true
  | .j => Trits.isZero (fieldA width w)
  | .b => true

/-- The instruction of an opcode with the fields of its format (R79). -/
def assembleFields (width : Nat) (w : Word) : Opcode → Instr
  | .halt => .halt
  | .loadi => .loadi (Trits.int (fieldA width w)) (Trits.int (fieldK width w))
  | .loadm => .loadm (Trits.int (fieldA width w)) (Trits.int (fieldK width w))
  | .store => .store (Trits.int (fieldA width w)) (Trits.int (fieldK width w))
  | .move => .move (Trits.int (fieldA width w)) (Trits.int (fieldB width w))
  | .add => .add (Trits.int (fieldA width w)) (Trits.int (fieldB width w)) (Trits.int (fieldC width w))
  | .sub => .sub (Trits.int (fieldA width w)) (Trits.int (fieldB width w)) (Trits.int (fieldC width w))
  | .mul => .mul (Trits.int (fieldA width w)) (Trits.int (fieldB width w)) (Trits.int (fieldC width w))
  | .neg => .neg (Trits.int (fieldA width w)) (Trits.int (fieldB width w))
  | .and => .and (Trits.int (fieldA width w)) (Trits.int (fieldB width w)) (Trits.int (fieldC width w))
  | .or => .or (Trits.int (fieldA width w)) (Trits.int (fieldB width w)) (Trits.int (fieldC width w))
  | .jmp => .jmp (Trits.int (fieldK width w))
  | .js => .js (Trits.int (fieldA width w)) (fieldS width w) (Trits.int (fieldKB width w))
  | .sgn => .sgn (Trits.int (fieldA width w)) (Trits.int (fieldB width w))

/-- The decode function, total on every word (R79). -/
def decode (width : Nat) (w : Word) : Decoded :=
  match Opcode.ofCode (Trits.int (fieldOp width w)) with
  | none => .invalid .reservedOpcode
  | some op =>
    if mustBeZero width w op.format then .instr (assembleFields width w op)
    else .invalid .nonzeroField

/-- The opcode of an instruction. -/
def Instr.opcode : Instr → Opcode
  | .halt => .halt
  | .loadi _ _ => .loadi
  | .loadm _ _ => .loadm
  | .store _ _ => .store
  | .move _ _ => .move
  | .add _ _ _ => .add
  | .sub _ _ _ => .sub
  | .mul _ _ _ => .mul
  | .neg _ _ => .neg
  | .and _ _ _ => .and
  | .or _ _ _ => .or
  | .jmp _ => .jmp
  | .js _ _ _ => .js
  | .sgn _ _ => .sgn

/-- The operand descriptors of an instruction (R71). The spec does not say which of the three kinds the branch trit `S`
of JS is (R71, R77, R85, R263): here it is an immediate that holds the trit's value -1, 0 or 1. Nor does it order the
descriptors: here they stand as the assembler writes them (R85). Both are DESIGN CHOICE, log entry 15, safe. -/
def Instr.operands : Instr → List Operand
  | .halt => []
  | .loadi a k => [.register a, .immediate k]
  | .loadm a k => [.register a, .address k]
  | .store a k => [.register a, .address k]
  | .move a b => [.register a, .register b]
  | .add a b c => [.register a, .register b, .register c]
  | .sub a b c => [.register a, .register b, .register c]
  | .mul a b c => [.register a, .register b, .register c]
  | .neg a b => [.register a, .register b]
  | .and a b c => [.register a, .register b, .register c]
  | .or a b c => [.register a, .register b, .register c]
  | .jmp k => [.address k]
  | .js a s kb => [.register a, .immediate s.toInt, .address kb]
  | .sgn a b => [.register a, .register b]

/-- The register fields an instruction uses, in the order A, B, C of the cycle's check (R186, R304). -/
def Instr.registerFields : Instr → List Int
  | .halt => []
  | .loadi a _ => [a]
  | .loadm a _ => [a]
  | .store a _ => [a]
  | .move a b => [a, b]
  | .add a b c => [a, b, c]
  | .sub a b c => [a, b, c]
  | .mul a b c => [a, b, c]
  | .neg a b => [a, b]
  | .and a b c => [a, b, c]
  | .or a b c => [a, b, c]
  | .jmp _ => []
  | .js a _ _ => [a]
  | .sgn a b => [a, b]

/-- The fields above the operand-dependent rest of a word, most significant first: OP, then the rest. -/
def encodeWith (op : Opcode) (rest : Trits) : Word := ⟨Trits.concat (toTrits op.code 3) rest⟩

/-- Format R: OP, A, B, C, and `W - 9` ZERO trits (R74). -/
def encodeR (width : Nat) (op : Opcode) (a b c : Int) : Word :=
  encodeWith op (Trits.concat (toTrits a 2) (Trits.concat (toTrits b 2)
    (Trits.concat (toTrits c 2) (Trits.zeros (width - 9)))))

/-- Format R2: OP, A, B, and `W - 7` ZERO trits (R74). -/
def encodeR2 (width : Nat) (op : Opcode) (a b : Int) : Word :=
  encodeWith op (Trits.concat (toTrits a 2) (Trits.concat (toTrits b 2) (Trits.zeros (width - 7))))

/-- Format I: OP, A, K (R74). -/
def encodeI (width : Nat) (op : Opcode) (a k : Int) : Word :=
  encodeWith op (Trits.concat (toTrits a 2) (toTrits k (width - 5)))

/-- The word of an instruction at width `W`, field by field from R74 and R78. -/
def encode (width : Nat) : Instr → Word
  | .halt => encodeWith .halt (Trits.zeros (width - 3))
  | .loadi a k => encodeI width .loadi a k
  | .loadm a k => encodeI width .loadm a k
  | .store a k => encodeI width .store a k
  | .move a b => encodeR2 width .move a b
  | .add a b c => encodeR width .add a b c
  | .sub a b c => encodeR width .sub a b c
  | .mul a b c => encodeR width .mul a b c
  | .neg a b => encodeR2 width .neg a b
  | .and a b c => encodeR width .and a b c
  | .or a b c => encodeR width .or a b c
  | .jmp k => encodeWith .jmp (Trits.concat (Trits.zeros 2) (toTrits k (width - 5)))
  | .js a s kb =>
    encodeWith .js (Trits.concat (toTrits a 2) (Trits.concat [s] (toTrits kb (width - 6))))
  | .sgn a b => encodeR2 width .sgn a b

/-- The trit that two bits stand for: 0 is ZERO, 1 is POSITIVE, 2 is NEGATIVE, and 3 is no trit.
DESIGN CHOICE (log entry 3): T3 has no bits (R54, R100); this code is used by `decodeTableWord` and
`State.withFetchWord` alone, and no step of the machine reads it. Safe. -/
def Trit.ofTwoBits (b : Nat) : Option Trit :=
  if b = 0 then some .zero else if b = 1 then some .positive else if b = 2 then some .negative else none

/-- The `n` trits of a number whose bits `2i+1, 2i` hold trit `i`; none if some pair is 3. -/
def tritsOfBits : Nat → Nat → Option Trits
  | 0, _ => some []
  | n + 1, w =>
    match Trit.ofTwoBits (w % 4), tritsOfBits n (w / 4) with
    | some t, some rest => some (t :: rest)
    | _, _ => none

/-- The word of `W` trits whose low `nbits` bits are those of `w` and whose other bits are 0 (all these trits
ZERO); none where two bits are no trit. -/
def wordOfBits (width nbits w : Nat) : Option Word := (tritsOfBits width (w % 2 ^ nbits)).map Word.mk

/-- The host's question (log entry 3): the instruction the decoder reads from the word that the bits of
`w` stand for, at the width of the opcode table's patterns, `W = 9`. -/
def decodeTableWord (nbits w : Nat) : Option Instr :=
  match wordOfBits 9 nbits w with
  | none => none
  | some word =>
    match decode 9 word with
    | .instr i => some i
    | .invalid _ => none

end Sys2Proof
end

