-- ==== Sys2Proof/Config.lean ====
section
/-! DEFINITION. The construction parameters of a machine (00_scope.md R7): a plain record that is fixed for the
machine's lifetime. The spec leaves no value free (93_implementation_defined.md: no behaviour is `any value`),
so there is no opaque constant here. -/

namespace Sys2Proof

/-- The parameters `W`, `NREG` and `M` (R7). -/
structure Config where
  /-- `W`: the width in trits of every register, of the PC and of every memory word. -/
  width : Nat
  /-- `NREG`: the number of general registers. -/
  nreg : Nat
  /-- `M`: the number of memory words. -/
  memWords : Nat
  deriving DecidableEq, Repr

/-- The ranges of R7; a construction outside them is refused (R9). -/
def Config.valid (c : Config) : Bool :=
  decide (9 ≤ c.width) && decide (1 ≤ c.nreg) && decide (c.nreg ≤ 5)
    && decide (1 ≤ c.memWords) && decide (c.memWords ≤ maxPos c.width + 1)

/-- The parameters of the spec's examples, `W = 9`, `NREG = 5`, `M = 27` (R7), taken by `State.reset`.
DESIGN CHOICE (log entry 1); safe, since every statement of this model is about every valid `Config`. -/
def Config.examples : Config := ⟨9, 5, 27⟩

end Sys2Proof
end

