-- ==== Sys2Proof/Machine/State.lean ====
section
/-! DEFINITION. The state of one machine, exactly what 10_state.md R20 lists plus the configuration record that is
fixed for the machine's lifetime (00_scope.md R7), the state after construction, and the reasons a step stops.
Plain data throughout. -/

namespace Sys2Proof.Machine

/-- `RUNSTATE` (R31). -/
inductive RunState where
  /-- Constructed, no step taken. -/
  | ready
  /-- At least one step taken, not stopped. -/
  | running
  /-- A HALT executed; terminal. -/
  | halted
  /-- A fault occurred; terminal. -/
  | faulted
  deriving DecidableEq, Repr

/-- The fault register `FAULT` (R32). -/
inductive FaultCode where
  | none
  | invalidOpcode
  | overflow
  | address
  deriving DecidableEq, Repr

/-- A reason a cycle can `raise Fault` with (R189): the values of `FAULT` other than `NONE`. -/
inductive FaultCause where
  | invalidOpcode
  | overflow
  | address
  deriving DecidableEq, Repr

/-- The memory: the (address, word) pairs of the words that differ from `0^W`, addresses strictly rising
(`Memory.wf`). A cell is a whole word, since T3 has no byte and no access narrower than a word (R53, R54;
DEDUCED, log entry 4, safe). -/
abbrev Memory := List (Nat × Word)

/-- The architectural state (R20). -/
structure State where
  /-- The parameters `W`, `NREG`, `M`: configuration, which no step writes (R7, R20). -/
  cfg : Config
  /-- `x[0] .. x[NREG-1]` (R21). -/
  regs : List Word
  /-- The program counter (R25). -/
  pc : Word
  /-- `mem[0] .. mem[M-1]` (R34, R50). -/
  mem : Memory
  /-- `RUNSTATE` (R31). -/
  runState : RunState
  /-- `FAULT` (R32). -/
  fault : FaultCode
  deriving DecidableEq, Repr

/-- Why a step call fails. T3's own faults are no stop of this kind: they are NEXT states with
`RUNSTATE = Faulted` (R190, R300). -/
inductive Fault where
  /-- Raised by `step` alone, when it is called in `Faulted`: the call fails with `StepAfterFault` and the
  state is unchanged (R184, R192; log entry 5). Safe: the spec says that this call fails. -/
  | stepAfterFault
  deriving DecidableEq, Repr

/-- Why a step is refused. -/
inductive Refusal where
  /-- Raised by an arm of `exec` that has no meaning yet; no arm of this model does. Safe. -/
  | notModelled (mnemonic : String)
  deriving DecidableEq, Repr

/-- The state right after a construction with parameters `c` and the memory `m` (R36, R332). -/
def State.constructed (c : Config) (m : Memory) : State where
  cfg := c
  regs := List.replicate c.nreg (Word.zero c.width)
  pc := Word.zero c.width
  mem := m
  runState := .ready
  fault := .none

/-- The state after reset: the construction with the parameters of the spec's examples and the image that
holds `0^W` at every address. The parameters and the image are the host's to give (R7, R36); these are
DESIGN CHOICES (log entry 1, safe; log entry 2, unsafe), everything else is R36 (log entry 10). -/
def State.reset : State := State.constructed Config.examples []

end Sys2Proof.Machine
end

