-- ==== Sys2Proof/Machine/Ops.lean ====
section
/-! DEFINITION. The named operations over memory and registers, raising a fault, the write requests of an
instruction and their commit, the PC advance, and fetch and decode (43_processor_cycle.md R186 to R190). -/

namespace Sys2Proof.Machine

/-- What one step answers. -/
abbrev Result := Host.Outcome State Fault Refusal

/-- The word at address `a`; an address that no pair lists holds `0^W` (R50). -/
def Memory.read (width : Nat) : Memory → Nat → Word
  | [], _ => Word.zero width
  | (b, v) :: rest, a => if a = b then v else Memory.read width rest a

/-- The pairs without address `a`. -/
def Memory.erase : Memory → Nat → Memory
  | [], _ => []
  | (b, v) :: rest, a => if a = b then rest else (b, v) :: Memory.erase rest a

/-- The pairs with `a` set to `v`, addresses in rising order. -/
def Memory.insert : Memory → Nat → Word → Memory
  | [], a, v => [(a, v)]
  | (b, u) :: rest, a, v =>
    if a < b then (a, v) :: (b, u) :: rest
    else if a = b then (a, v) :: rest
    else (b, u) :: Memory.insert rest a v

/-- `MemWrite(a, 1, v)` (R14, R53), keeping the canonical form: writing `0^W` removes the pair. -/
def Memory.write (width : Nat) (m : Memory) (a : Nat) (v : Word) : Memory :=
  if v = Word.zero width then Memory.erase m a else Memory.insert m a v

/-- The memory that holds an image from address `a` on: the words other than `0^W` (R36, R52). -/
def Memory.ofImage (width : Nat) : Nat → List Trits → Memory
  | _, [] => []
  | a, t :: rest =>
    if t = Trits.zeros width then Memory.ofImage width (a + 1) rest
    else (a, ⟨t⟩) :: Memory.ofImage width (a + 1) rest

/-- `MemRead(a, 1)` on the machine's memory (R14). -/
def State.memRead (s : State) (a : Nat) : Word := Memory.read s.cfg.width s.mem a

/-- The machine with `mem[a]` replaced (R14, R53). -/
def State.memWrite (s : State) (a : Nat) (v : Word) : State :=
  { s with mem := Memory.write s.cfg.width s.mem a v }

/-- The machine with general register `i` replaced (R21). -/
def State.setReg (s : State) (i : Nat) (v : Word) : State := { s with regs := s.regs.set i v }

/-- The machine with the PC replaced (R25). -/
def State.setPc (s : State) (v : Word) : State := { s with pc := v }

/-- The machine with `RUNSTATE` replaced (R31). -/
def State.setRunState (s : State) (r : RunState) : State := { s with runState := r }

/-- The value of `FAULT` that a cause records (R32). -/
def FaultCause.toCode : FaultCause → FaultCode
  | .invalidOpcode => .invalidOpcode
  | .overflow => .overflow
  | .address => .address

/-- `raise Fault(r)`, taking T3's one kind of exception: `RUNSTATE <- Faulted`, `FAULT <- r`, and nothing else
is written, so the PC stays at the faulting instruction (R14, R190, R300, R310). There is no return from it
(R311). -/
def takeFault (s : State) (r : FaultCause) : State :=
  { s with runState := .faulted, fault := r.toCode }

/-- The write requests `(regw, memw, next)` of an instruction (R186); `next = none` asks for the PC advance. -/
structure Writes where
  reg : Option (Nat × Word)
  mem : Option (Nat × Word)
  next : Option Word
  deriving DecidableEq, Repr

/-- What an instruction's own rule gives: its write requests, or the fault it raises (R186). -/
abbrev Request := Except FaultCause Writes

/-- A request that writes register `d` and advances the PC. -/
def Writes.toReg (d : Int) (v : Word) : Writes := ⟨some (d.toNat, v), none, none⟩

/-- A request that writes memory and advances the PC. -/
def Writes.toMem (a : Nat) (v : Word) : Writes := ⟨none, some (a, v), none⟩

/-- A request that redirects the PC. -/
def Writes.toPc (target : Word) : Writes := ⟨none, none, some target⟩

/-- A request that only advances the PC. -/
def Writes.nothing : Writes := ⟨none, none, none⟩

/-- The write check of R180 inside a step, where the rejection is the fault `OVERFLOW`. -/
def checkedWord (width : Nat) (v : Int) : Except FaultCause Word :=
  match regWord width v with
  | .ok w => .ok w
  | .error _ => .error .overflow

/-- `advance(a)` for the address in the PC (R26, R28, R187, D15). -/
def advance (s : State) : Except FaultCause Word :=
  if s.pc.int + 1 > maxPos s.cfg.width then .error .overflow
  else .ok (Word.ofInt s.cfg.width (s.pc.int + 1))

/-- The PC after the step: the target an instruction asked for, or the advance (R186). -/
def nextPc (s : State) (w : Writes) : Except FaultCause Word :=
  match w.next with
  | some target => .ok target
  | none => advance s

/-- Commit of the register request (R186). -/
def commitReg (s : State) : Option (Nat × Word) → State
  | none => s
  | some (d, v) => s.setReg d v

/-- Commit of the memory request (R186). -/
def commitMem (s : State) : Option (Nat × Word) → State
  | none => s
  | some (a, v) => s.memWrite a v

/-- All writes of a step, at its end (R15, R182, R186). -/
def commit (s : State) (w : Writes) (next : Word) : State :=
  (commitMem (commitReg s w.reg) w.mem).setPc next

/-- The end of the cycle (R186): the fault an instruction raised, then the fault of the PC advance, then the
commit. Every check comes before every write (R15, R190, R305). -/
def finish (s : State) (q : Request) : Result :=
  match q with
  | .error r => .next (takeFault s r)
  | .ok w =>
    match nextPc s w with
    | .error r => .next (takeFault s r)
    | .ok next => .next (commit s w next)

/-- An address is valid when it names one of the `M` words (R51). -/
def addressValid (s : State) (a : Int) : Bool := decide (0 ≤ a) && decide (a < s.cfg.memWords)

/-- Fetch the word at the PC and decode it: `ADDRESS` for an invalid fetch address, `INVALID_OPCODE` for a
word that decodes to `Invalid` (R186, R301, R302). -/
def fetchDecode (s : State) : Except FaultCause Instr :=
  if addressValid s s.pc.int then
    match decode s.cfg.width (s.memRead s.pc.int.toNat) with
    | .instr i => .ok i
    | .invalid _ => .error .invalidOpcode
  else .error .address

end Sys2Proof.Machine
end

