-- ==== Sys2Proof/Machine/Flags.lean ====
section
/-! DEFINITION. T3 has no flags and no condition codes (10_state.md R29). What an instruction decides on stands
here: the overflow outputs of the adder and of the multiplier (41_trits.md R125, R129), the sign condition of
JS (47_control.md R263), and the codes of the two status registers (10_state.md R31, R32). -/

namespace Sys2Proof.Machine

/-- The adder's `OVF = (cout != 0)` (R125). -/
def adderOverflow (r : AdderOut) : Bool := decide (r.cout ≠ .zero)

/-- The multiplier's `OVF = (hi != 0^W)` (R129). -/
def multiplierOverflow (r : MultiplierOut) : Bool := !Trits.isZero r.hi

/-- The condition of JS: the sign of the whole word is the trit `S` (R77, R263). -/
def signCondition (x : Word) (s : Trit) : Bool := decide (sgnw x = s)

/-- The code of a value of `RUNSTATE` (R31, D17). -/
def RunState.code : RunState → Nat
  | .ready => 0
  | .running => 1
  | .halted => 2
  | .faulted => 3

/-- The code of a value of `FAULT` (R32, D17). -/
def FaultCode.code : FaultCode → Nat
  | .none => 0
  | .invalidOpcode => 1
  | .overflow => 2
  | .address => 3

end Sys2Proof.Machine
end

