-- ==== Sys2Proof/Machine/Operands.lean ====
section
/-! DEFINITION. The operand forms: the register fields with their check, and the absolute memory operand
(10_state.md R24, 20_memory.md R51, 30_encoding.md R75, R76, 44_data_transfer.md R222). -/

namespace Sys2Proof.Machine

/-- A register field names a register when `0 <= f < NREG` (R24). -/
def registerValid (s : State) (f : Int) : Bool := decide (0 ≤ f) && decide (f < s.cfg.nreg)

/-- `x[f]` for a register field `f` that has passed the check (R14). -/
def State.reg (s : State) (f : Int) : Word := s.regs.getD f.toNat (Word.zero s.cfg.width)

/-- The register checks of the cycle, in the order the fields are listed, and then the instruction's own rule
(R186). Every failing field raises the same `ADDRESS`, so their order cannot be told apart (R305). -/
def withRegisters (s : State) (fields : List Int) (q : Request) : Result :=
  if fields.all (registerValid s) then finish s q else .next (takeFault s .address)

/-- The memory operand `ea = Int(K)` of LOADM and STORE: absolute, `ADDRESS` when invalid (R76, R213, R216). -/
def effectiveAddress (s : State) (k : Int) : Except FaultCause Nat :=
  if addressValid s k then .ok k.toNat else .error .address

end Sys2Proof.Machine
end

