-- ==== Sys2Proof/Machine/Arithmetic.lean ====
section
/-! DEFINITION. The meanings of ADD, SUB, MUL, NEG and SGN (45_arithmetic.md). A result that does not fit in `W`
trits faults `OVERFLOW` and is never truncated (R167, R245). -/

namespace Sys2Proof.Machine

/-- The word adder's sum into register `a`, `OVERFLOW` when its carry out is nonzero (R230, R233). -/
def adderRequest (a : Int) (r : AdderOut) : Request :=
  if adderOverflow r then .error .overflow else .ok (Writes.toReg a r.sum)

/-- The low half of the word multiplier's product into register `a`, `OVERFLOW` when the high half is not
zero (R236). -/
def multiplierRequest (a : Int) (r : MultiplierOut) : Request :=
  if multiplierOverflow r then .error .overflow else .ok (Writes.toReg a r.lo)

/-- ADD: `ADDW(x[B], x[C], 0)` (R230). -/
def execAdd (a b c : Int) (s : State) : Result :=
  withRegisters s [a, b, c] (adderRequest a (addw (s.reg b) (s.reg c) .zero))

/-- SUB: `ADDW(x[B], NEG(x[C]), 0)` (R233). -/
def execSub (a b c : Int) (s : State) : Result :=
  withRegisters s [a, b, c] (adderRequest a (addw (s.reg b) (negw (s.reg c)) .zero))

/-- MUL: `MULW(x[B], x[C])`, kept only when it fits (R236). -/
def execMul (a b c : Int) (s : State) : Result :=
  withRegisters s [a, b, c] (multiplierRequest a (mulw (s.reg b) (s.reg c)))

/-- NEG: trit-wise negation, also the Kleene NOT of a word (R239, R256). -/
def execNeg (a b : Int) (s : State) : Result :=
  withRegisters s [a, b] (.ok (Writes.toReg a (negw (s.reg b))))

/-- SGN: the sign trit widened to a word (R242). -/
def execSgn (a b : Int) (s : State) : Result :=
  withRegisters s [a, b] (.ok (Writes.toReg a (Word.sext s.cfg.width [sgnw (s.reg b)])))

end Sys2Proof.Machine
end

