-- ==== Sys2Proof/Machine/Control.lean ====
section
/-! DEFINITION. The meanings of JMP, JS and HALT (47_control.md). -/

namespace Sys2Proof.Machine

/-- A request to jump to the address `target`: written to the PC unchecked as an address, through the
register write check of R180, which always accepts a target that a word can hold (R76, R260, D16; DEDUCED, log
entry 6, safe). -/
def jumpRequest (s : State) (target : Int) : Request :=
  match checkedWord s.cfg.width target with
  | .error r => .error r
  | .ok w => .ok (Writes.toPc w)

/-- JMP (R260). -/
def execJmp (k : Int) (s : State) : Result := withRegisters s [] (jumpRequest s k)

/-- The rule of JS: jump when the sign of `x[A]` is `S`, else the PC advances (R263). -/
def jsRequest (s : State) (a : Int) (t : Trit) (kb : Int) : Request :=
  if signCondition (s.reg a) t then jumpRequest s kb else .ok Writes.nothing

/-- JS (R263). -/
def execJs (a : Int) (t : Trit) (kb : Int) (s : State) : Result :=
  withRegisters s [a] (jsRequest s a t kb)

/-- HALT: `RUNSTATE <- Halted`; the PC, the registers and memory are unchanged (R186, R266, D14). -/
def execHalt (s : State) : Result := .next (s.setRunState .halted)

end Sys2Proof.Machine
end

