-- ==== Sys2Proof/Machine/DataTransfer.lean ====
section
/-! DEFINITION. The meanings of LOADI, LOADM, STORE and MOVE (44_data_transfer.md). -/

namespace Sys2Proof.Machine

/-- The rule of LOADI: `x[A] <- to_trits(Int(K), W)` (R210). The check of R180 always accepts a `K` that a
word can hold; another one faults `OVERFLOW` (DEDUCED, log entry 6, safe). -/
def loadiRequest (s : State) (a k : Int) : Request :=
  match checkedWord s.cfg.width k with
  | .error r => .error r
  | .ok w => .ok (Writes.toReg a w)

/-- LOADI (R210). -/
def execLoadi (a k : Int) (s : State) : Result := withRegisters s [a] (loadiRequest s a k)

/-- The rule of LOADM: `x[A] <- mem[Int(K)]`, `ADDRESS` for an invalid address (R213). -/
def loadmRequest (s : State) (a k : Int) : Request :=
  match effectiveAddress s k with
  | .error r => .error r
  | .ok ea => .ok (Writes.toReg a (s.memRead ea))

/-- LOADM (R213). -/
def execLoadm (a k : Int) (s : State) : Result := withRegisters s [a] (loadmRequest s a k)

/-- The rule of STORE: `mem[Int(K)] <- x[A]`, `ADDRESS` for an invalid address (R216). -/
def storeRequest (s : State) (a k : Int) : Request :=
  match effectiveAddress s k with
  | .error r => .error r
  | .ok ea => .ok (Writes.toMem ea (s.reg a))

/-- STORE (R216). -/
def execStore (a k : Int) (s : State) : Result := withRegisters s [a] (storeRequest s a k)

/-- MOVE: `x[A] <- x[B]` (R219). -/
def execMove (a b : Int) (s : State) : Result :=
  withRegisters s [a, b] (.ok (Writes.toReg a (s.reg b)))

end Sys2Proof.Machine
end

