-- ==== Sys2Proof/Machine/Logic.lean ====
section
/-! DEFINITION. The meanings of AND and OR (46_logic.md). NOT is NEG (R256). -/

namespace Sys2Proof.Machine

/-- AND: `min` at every position (R250). -/
def execAnd (a b c : Int) (s : State) : Result :=
  withRegisters s [a, b, c] (.ok (Writes.toReg a (andw (s.reg b) (s.reg c))))

/-- OR: `max` at every position (R253). -/
def execOr (a b c : Int) (s : State) : Result :=
  withRegisters s [a, b, c] (.ok (Writes.toReg a (orw (s.reg b) (s.reg c))))

end Sys2Proof.Machine
end

