-- ==== Sys2Proof/Machine/Dispatch.lean ====
section
/-! DEFINITION. The dispatch from an instruction to its meaning, one arm per constructor. -/

namespace Sys2Proof.Machine

def exec (i : Instr) (s : State) : Host.Outcome State Fault Refusal :=
  match i with
  | .halt => Sys2Proof.Machine.execHalt s
  | .loadi a k => Sys2Proof.Machine.execLoadi a k s
  | .loadm a k => Sys2Proof.Machine.execLoadm a k s
  | .store a k => Sys2Proof.Machine.execStore a k s
  | .move a b => Sys2Proof.Machine.execMove a b s
  | .add a b c => Sys2Proof.Machine.execAdd a b c s
  | .sub a b c => Sys2Proof.Machine.execSub a b c s
  | .mul a b c => Sys2Proof.Machine.execMul a b c s
  | .neg a b => Sys2Proof.Machine.execNeg a b s
  | .and a b c => Sys2Proof.Machine.execAnd a b c s
  | .or a b c => Sys2Proof.Machine.execOr a b c s
  | .jmp k => Sys2Proof.Machine.execJmp k s
  | .js a t kb => Sys2Proof.Machine.execJs a t kb s
  | .sgn a b => Sys2Proof.Machine.execSgn a b s

end Sys2Proof.Machine
end

