-- ==== Sys2Proof/Machine/Step.lean ====
section
/-! DEFINITION. One step of the machine (43_processor_cycle.md R183 to R192), and the host's placing of one
instruction where the next step fetches. -/

namespace Sys2Proof.Machine

/-- One cycle (R186): fetch, decode, execute; a fault of fetch or decode is taken here, every other one by the
instruction's meaning. -/
def cycle (s : State) : Host.Outcome State Fault Refusal :=
  match fetchDecode s with
  | .error r => .next (takeFault s r)
  | .ok i => exec i s

/-- `step()` (R183, R185, R192): in `Ready` and `Running` one cycle, in `Running`; in `Halted` a no-op; in
`Faulted` the call fails with `StepAfterFault`. -/
def step (s : State) : Host.Outcome State Fault Refusal :=
  match s.runState with
  | .ready => cycle (s.setRunState .running)
  | .running => cycle s
  | .halted => .next s
  | .faulted => .fault .stepAfterFault

/-- The machine ready to fetch at its PC: a stopped machine, or one whose PC names no memory word, is taken to
the entry point in `Ready`, as a construction would leave it (R331). -/
def State.readyToFetch (s : State) : State :=
  match s.runState with
  | .ready => if addressValid s s.pc.int then s else s.setPc (Word.zero s.cfg.width)
  | .running => if addressValid s s.pc.int then s else s.setPc (Word.zero s.cfg.width)
  | .halted => { s with pc := Word.zero s.cfg.width, runState := .ready, fault := .none }
  | .faulted => { s with pc := Word.zero s.cfg.width, runState := .ready, fault := .none }

/-- The word the host's bits stand for, and the all-NEGATIVE word, which decodes to `Invalid`, where some pair
of bits is no trit (DESIGN CHOICE, log entry 3, safe). -/
def fetchWord (width nbits w : Nat) : Word :=
  match wordOfBits width nbits w with
  | some word => word
  | none => ⟨List.replicate width .negative⟩

/-- `s` with one instruction stored at the address its next step fetches from. It stands for the part of a
construction that places a program in the image (R37, R334; log entry 3). -/
def State.withFetchWord (s : State) (nbits w : Nat) : State :=
  s.readyToFetch.memWrite s.readyToFetch.pc.int.toNat (fetchWord s.cfg.width nbits w)

end Sys2Proof.Machine
end

