-- ==== Sys2Proof/WellFormed.lean ====
section
/-! DEFINITION. When an instruction has an encoding in a word of `W` trits: every operand fits the field that
holds it (30_encoding.md R74 to R77). -/

namespace Sys2Proof

/-- A register field holds two trits, -4 .. +4 (R75). -/
def registerFieldFits (f : Int) : Bool := fits f 2

/-- The field `K` holds `W - 5` trits (R74, R76). -/
def wordFieldFits (width : Nat) (k : Int) : Bool := fits k (width - 5)

/-- The field `KB` holds `W - 6` trits (R74, R76). -/
def branchFieldFits (width : Nat) (kb : Int) : Bool := fits kb (width - 6)

/-- Every operand fits its field. -/
def Instr.wf (width : Nat) : Instr → Bool
  | .halt => true
  | .loadi a k => registerFieldFits a && wordFieldFits width k
  | .loadm a k => registerFieldFits a && wordFieldFits width k
  | .store a k => registerFieldFits a && wordFieldFits width k
  | .move a b => registerFieldFits a && registerFieldFits b
  | .add a b c => registerFieldFits a && registerFieldFits b && registerFieldFits c
  | .sub a b c => registerFieldFits a && registerFieldFits b && registerFieldFits c
  | .mul a b c => registerFieldFits a && registerFieldFits b && registerFieldFits c
  | .neg a b => registerFieldFits a && registerFieldFits b
  | .and a b c => registerFieldFits a && registerFieldFits b && registerFieldFits c
  | .or a b c => registerFieldFits a && registerFieldFits b && registerFieldFits c
  | .jmp k => wordFieldFits width k
  | .js a _ kb => registerFieldFits a && branchFieldFits width kb
  | .sgn a b => registerFieldFits a && registerFieldFits b

end Sys2Proof
end

