-- ==== Sys2Proof/Machine/Assembler.lean ====
section
/-! DEFINITION. The assembler syntax of 30_encoding.md R84 to R87: lines, labels, comments, operands, the
pseudo-instructions and `.word`, from text to words, and a disassembler. The machine never sees it (D23).
Text is a list of characters. -/

namespace Sys2Proof.Asm

/-- `AssemblyError`: why a text is refused; no word is produced (R85, R308). The spec has this one error and names
two causes, an unknown mnemonic and a number that does not fit. The other causes, and telling the causes apart, are the
model's choice (DESIGN CHOICE, log entry 13, unsafe). -/
inductive AssemblyError where
  | unknownMnemonic
  /-- Operands of the wrong number or form, or a label that is no name (log entry 13). -/
  | malformed
  /-- An immediate, address or register number that does not fit its field, or a `.word` literal that is not
  exactly `W` trits. -/
  | doesNotFit
  /-- A label that two lines of one text define (log entry 13). -/
  | labelDefinedTwice
  /-- A label operand that no line of the text defines (log entry 13). -/
  | labelUndefined
  deriving DecidableEq, Repr

/-- A memory address or jump target as written: a number or a label (R84). -/
inductive Target where
  | number (v : Int)
  | label (name : List Char)
  deriving DecidableEq, Repr

/-- Every mnemonic of R85, every pseudo-instruction of R86, and `.word` (R84). -/
inductive Mnemonic where
  | op (o : Opcode)
  | load | not | jn | jz | jp | nop | clr | word
  deriving DecidableEq, Repr

/-- One assembled item before its labels are resolved: pseudo-instructions are already expanded (R86). -/
inductive Item where
  | plain (i : Instr)
  | loadm (a : Int) (t : Target)
  | store (a : Int) (t : Target)
  | jmp (t : Target)
  | js (a : Int) (s : Trit) (t : Target)
  | word (t : Trits)
  deriving DecidableEq, Repr

/-- The spelling of each mnemonic. -/
def mnemonicTable : List (String × Mnemonic) :=
  [("HALT", .op .halt), ("LOADI", .op .loadi), ("LOADM", .op .loadm), ("STORE", .op .store),
    ("MOVE", .op .move), ("ADD", .op .add), ("SUB", .op .sub), ("MUL", .op .mul), ("NEG", .op .neg),
    ("AND", .op .and), ("OR", .op .or), ("JMP", .op .jmp), ("JS", .op .js), ("SGN", .op .sgn),
    ("LOAD", .load), ("NOT", .not), ("JN", .jn), ("JZ", .jz), ("JP", .jp), ("NOP", .nop), ("CLR", .clr),
    (".word", .word)]

/-- The mnemonic a word of text spells. -/
def mnemonicOf (name : List Char) : Option Mnemonic :=
  (mnemonicTable.find? fun p => decide (p.1.toList = name)).map Prod.snd

/-- White space inside a line (DESIGN CHOICE, log entry 9, unsafe). -/
def isBlank (c : Char) : Bool := decide (c = ' ') || decide (c = '\t') || decide (c = '\r')

/-- Text without white space at either end: blanks around labels, mnemonics and operands do not count (DESIGN CHOICE,
log entry 9, unsafe). -/
def trim (s : List Char) : List Char := ((s.dropWhile isBlank).reverse.dropWhile isBlank).reverse

/-- Text cut at every separator. -/
def split (sep : Char) : List Char → List (List Char)
  | [] => [[]]
  | c :: rest =>
    match split sep rest with
    | [] => [[c]]
    | piece :: pieces => if c = sep then [] :: piece :: pieces else (c :: piece) :: pieces

/-- The value of a string of decimal digits, added to `acc`. -/
def digitsFrom : Nat → List Char → Option Nat
  | acc, [] => some acc
  | acc, c :: rest => if c.isDigit then digitsFrom (10 * acc + (c.toNat - 48)) rest else none

/-- A decimal number of at least one digit. -/
def parseNat (s : List Char) : Option Nat := if s = [] then none else digitsFrom 0 s

/-- A signed decimal (R84). -/
def parseInt : List Char → Option Int
  | '-' :: rest => (parseNat rest).map fun n => -(n : Int)
  | '+' :: rest => (parseNat rest).map fun n => (n : Int)
  | s => (parseNat s).map fun n => (n : Int)

/-- A label name: a letter or underscore, then letters, digits and underscores (DESIGN CHOICE, log entry 7, unsafe). -/
def isName : List Char → Bool
  | [] => false
  | c :: rest => (c.isAlpha || decide (c = '_')) && rest.all fun d => d.isAlphanum || decide (d = '_')

/-- A register operand `r<n>` (R84). -/
def parseRegister : List Char → Option Int
  | 'r' :: rest => (parseNat rest).map fun n => (n : Int)
  | _ => none

/-- An immediate operand `#<signed decimal>` (R84). -/
def parseImmediate : List Char → Option Int
  | '#' :: rest => parseInt rest
  | _ => none

/-- A memory address or jump target: `@<decimal>`, a label, or `@` and a label (R84; DESIGN CHOICE, log entry 7, unsafe). -/
def parseTarget : List Char → Option Target
  | '@' :: rest =>
    match parseInt rest with
    | some v => some (.number v)
    | none => if isName rest then some (.label rest) else none
  | s => if isName s then some (.label s) else none

/-- A sign condition, one trit character (R84). -/
def parseTrit : List Char → Option Trit
  | [c] => Trit.ofChar c
  | _ => none

/-- Two register operands. -/
def twoRegisters (f : Int → Int → Instr) (x y : List Char) : Option Item :=
  match parseRegister x, parseRegister y with
  | some d, some a => some (.plain (f d a))
  | _, _ => none

/-- Three register operands. -/
def threeRegisters (f : Int → Int → Int → Instr) (x y z : List Char) : Option Item :=
  match parseRegister x, parseRegister y, parseRegister z with
  | some d, some a, some b => some (.plain (f d a b))
  | _, _, _ => none

/-- A register and an immediate. -/
def registerImmediate (x y : List Char) : Option Item :=
  match parseRegister x, parseImmediate y with
  | some d, some k => some (.plain (.loadi d k))
  | _, _ => none

/-- A register and an address. -/
def registerTarget (f : Int → Target → Item) (x y : List Char) : Option Item :=
  match parseRegister x, parseTarget y with
  | some d, some t => some (f d t)
  | _, _ => none

/-- One instruction, pseudo-instruction or `.word` with its operands, destination first (R84 to R86); none
where the operands do not have the form of the mnemonic. -/
def parseItem : Mnemonic → List (List Char) → Option Item
  | .op .halt, [] => some (.plain .halt)
  | .op .loadi, [x, y] => registerImmediate x y
  | .op .loadm, [x, y] => registerTarget .loadm x y
  | .op .store, [x, y] => registerTarget .store x y
  | .op .move, [x, y] => twoRegisters .move x y
  | .op .add, [x, y, z] => threeRegisters .add x y z
  | .op .sub, [x, y, z] => threeRegisters .sub x y z
  | .op .mul, [x, y, z] => threeRegisters .mul x y z
  | .op .neg, [x, y] => twoRegisters .neg x y
  | .op .and, [x, y, z] => threeRegisters .and x y z
  | .op .or, [x, y, z] => threeRegisters .or x y z
  | .op .jmp, [x] => (parseTarget x).map .jmp
  | .op .js, [x, y, z] =>
    match parseTrit y with
    | some s => registerTarget (fun a t => .js a s t) x z
    | none => none
  | .op .sgn, [x, y] => twoRegisters .sgn x y
  | .load, [x, y] =>
    match parseImmediate y with
    | some _ => registerImmediate x y
    | none => registerTarget .loadm x y
  | .not, [x, y] => twoRegisters .neg x y
  | .jn, [x, y] => registerTarget (fun a t => .js a .negative t) x y
  | .jz, [x, y] => registerTarget (fun a t => .js a .zero t) x y
  | .jp, [x, y] => registerTarget (fun a t => .js a .positive t) x y
  | .nop, [] => some (.plain (.move 0 0))
  | .clr, [x] => (parseRegister x).map fun d => .plain (.loadi d 0)
  | .word, [x] =>
    match Trits.ofChars x with
    | .ok t => some (.word t)
    | .error _ => none
  | _, _ => none

/-- One line: the label it defines, if any, and its item, if any. -/
structure Line where
  label : Option (List Char)
  item : Option Item
  deriving DecidableEq, Repr

/-- The operands of a line: the text after the mnemonic, cut at commas. -/
def operandsOf (text : List Char) : List (List Char) :=
  if trim text = [] then [] else (split ',' text).map trim

/-- The instruction part of a line, without label and comment. -/
def parseBody (text : List Char) : Except AssemblyError (Option Item) :=
  let body := trim text
  let name := body.takeWhile fun c => !isBlank c
  if body = [] then .ok none
  else
    match mnemonicOf name with
    | none => .error .unknownMnemonic
    | some m =>
      match parseItem m (operandsOf (body.drop name.length)) with
      | none => .error .malformed
      | some item => .ok (some item)

/-- One line of source: `;` starts a comment, `name:` at the start defines a label (R84). R84 is silent on blanks
there: blanks before a label name, between the name and its colon, after the colon, and before a mnemonic are accepted
and ignored. It is silent too on a line with nothing but blanks, a comment or a label, which is accepted and gives no
word, and on a second label on one line, which is refused (DESIGN CHOICE, log entry 9, unsafe). -/
def parseLine (text : List Char) : Except AssemblyError Line :=
  let code := text.takeWhile fun c => decide (c ≠ ';')
  let before := code.takeWhile fun c => decide (c ≠ ':')
  if before.length < code.length then
    if isName (trim before) then
      match parseBody (code.drop (before.length + 1)) with
      | .ok item => .ok ⟨some (trim before), item⟩
      | .error e => .error e
    else .error .malformed
  else
    match parseBody code with
    | .ok item => .ok ⟨none, item⟩
    | .error e => .error e

/-- All lines, or the first error: one refused line refuses the text (DESIGN CHOICE, log entry 14, unsafe). -/
def parseLines : List (List Char) → Except AssemblyError (List Line)
  | [] => .ok []
  | text :: rest =>
    match parseLine text with
    | .error e => .error e
    | .ok line =>
      match parseLines rest with
      | .error e => .error e
      | .ok lines => .ok (line :: lines)

/-- The labels and their values: the address of the next word (R84), the first word of a text being at address 0
(DESIGN CHOICE, log entry 9, unsafe). -/
def labelTable : Nat → List Line → List (List Char × Nat)
  | _, [] => []
  | address, line :: rest =>
    let later := labelTable (if line.item.isSome then address + 1 else address) rest
    match line.label with
    | some name => (name, address) :: later
    | none => later

/-- The number a target stands for. -/
def resolve (labels : List (List Char × Nat)) : Target → Except AssemblyError Int
  | .number v => .ok v
  | .label name =>
    match labels.find? fun p => decide (p.1 = name) with
    | some p => .ok (p.2 : Int)
    | none => .error .labelUndefined

/-- An instruction the assembler accepts: every operand fits its field, a register number being 0 .. 4 (R85).
A register number that fits but is not below `NREG` is assembled, and faults at execute. -/
def encodable (width : Nat) (i : Instr) : Bool :=
  i.wf width && i.registerFields.all fun f => decide (0 ≤ f)

/-- The word of an instruction, or the refusal of R85. -/
def wordOf (width : Nat) (i : Instr) : Except AssemblyError Word :=
  if encodable width i then .ok (encode width i) else .error .doesNotFit

/-- The word of an item. -/
def itemWord (width : Nat) (labels : List (List Char × Nat)) : Item → Except AssemblyError Word
  | .plain i => wordOf width i
  | .loadm a t =>
    match resolve labels t with
    | .ok k => wordOf width (.loadm a k)
    | .error e => .error e
  | .store a t =>
    match resolve labels t with
    | .ok k => wordOf width (.store a k)
    | .error e => .error e
  | .jmp t =>
    match resolve labels t with
    | .ok k => wordOf width (.jmp k)
    | .error e => .error e
  | .js a s t =>
    match resolve labels t with
    | .ok k => wordOf width (.js a s k)
    | .error e => .error e
  | .word t => if t.length = width then .ok ⟨t⟩ else .error .doesNotFit

/-- The words of all items, in address order, or the first error: R85 produces no word for a refused line and does not
say what becomes of the other lines; here the whole text gives no word (DESIGN CHOICE, log entry 14, unsafe). -/
def itemWords (width : Nat) (labels : List (List Char × Nat)) :
    List Item → Except AssemblyError (List Word)
  | [] => .ok []
  | item :: rest =>
    match itemWord width labels item with
    | .error e => .error e
    | .ok w =>
      match itemWords width labels rest with
      | .error e => .error e
      | .ok ws => .ok (w :: ws)

/-- No name twice. -/
def distinctNames : List (List Char) → Bool
  | [] => true
  | name :: rest => !(rest.any fun n => decide (n = name)) && distinctNames rest

/-- Assemble a program text into the words of the cells from address 0 on (R84 to R86). Two points are the model's
choice: a text that defines a label twice is refused as a whole, where R84, R85 and D23 are silent (DESIGN CHOICE, log
entry 13, unsafe), and a text with any refused line gives no word and one error, that of the first refused line in the
order lines, labels, words (DESIGN CHOICE, log entry 14, unsafe). -/
def assemble (width : Nat) (text : List Char) : Except AssemblyError (List Word) :=
  match parseLines (split '\n' text) with
  | .error e => .error e
  | .ok lines =>
    let labels := labelTable 0 lines
    if distinctNames (labels.map Prod.fst) then itemWords width labels (lines.filterMap Line.item)
    else .error .labelDefinedTwice

/-- The same from a string. -/
def assembleText (width : Nat) (text : String) : Except AssemblyError (List Word) :=
  assemble width text.toList

/-- A number in decimal. -/
def intText (v : Int) : String := if v < 0 then "-" ++ Nat.repr v.natAbs else Nat.repr v.natAbs

/-- A register operand as text (R84). -/
def registerText (f : Int) : String := "r" ++ intText f

/-- A target or address as text (R84). -/
def targetText (k : Int) : String := "@" ++ intText k

/-- Operands joined by commas (R84). -/
def joinOperands : List String → String
  | [] => ""
  | [x] => x
  | x :: rest => x ++ ", " ++ joinOperands rest

/-- A mnemonic and its operands. -/
def lineText (mnemonic : String) (operands : List String) : String :=
  mnemonic ++ " " ++ joinOperands operands

/-- An instruction in the syntax of R85. A NEG word is printed as NEG, whether or not it was written as NOT
(R256). -/
def instrText : Instr → String
  | .halt => "HALT"
  | .loadi a k => lineText "LOADI" [registerText a, "#" ++ intText k]
  | .loadm a k => lineText "LOADM" [registerText a, targetText k]
  | .store a k => lineText "STORE" [registerText a, targetText k]
  | .move a b => lineText "MOVE" [registerText a, registerText b]
  | .add a b c => lineText "ADD" [registerText a, registerText b, registerText c]
  | .sub a b c => lineText "SUB" [registerText a, registerText b, registerText c]
  | .mul a b c => lineText "MUL" [registerText a, registerText b, registerText c]
  | .neg a b => lineText "NEG" [registerText a, registerText b]
  | .and a b c => lineText "AND" [registerText a, registerText b, registerText c]
  | .or a b c => lineText "OR" [registerText a, registerText b, registerText c]
  | .jmp k => lineText "JMP" [targetText k]
  | .js a s kb => lineText "JS" [registerText a, String.ofList [Trit.toChar s], targetText kb]
  | .sgn a b => lineText "SGN" [registerText a, registerText b]

/-- A word as a line of source: its instruction, or its trit literal when it is none or when it names a
register the syntax cannot spell (R84, R87). -/
def disassemble (width : Nat) (w : Word) : String :=
  match decode width w with
  | .instr i => if encodable width i then instrText i else ".word " ++ Trits.toText w.trits
  | .invalid _ => ".word " ++ Trits.toText w.trits

end Sys2Proof.Asm
end

