-- ==== Sys2Proof/Machine/HostInterface.lean ====
section
/-! DEFINITION. The host's operations on a machine: construct, step, run, inspect (43_processor_cycle.md R193 to
R202, 00_scope.md R9, 60_exceptions.md R308), and several independent instances side by side (R65, R198). -/

namespace Sys2Proof.Machine

/-- The errors of the host interface, each of which changes no machine state (R308). -/
inductive HostError where
  /-- A construction with invalid parameters or image (R9). -/
  | configError
  /-- A `run` call without a bound (R194). -/
  | missingBound
  deriving DecidableEq, Repr

/-- What a `step` or `run` call returns (R184, R193). -/
inductive CallResult where
  | ok
  | stepAfterFault
  deriving DecidableEq, Repr

/-- An image gives exactly `M` words of exactly `W` trits (R9, R52). -/
def imageValid (c : Config) (image : List Trits) : Bool :=
  decide (image.length = c.memWords) && image.all fun t => decide (t.length = c.width)

/-- `construct(W, NREG, M, image)`: the only reset (R200, R330), refused with `ConfigError` outside R7 (R9). -/
def construct (width nreg memWords : Nat) (image : List Trits) : Except HostError State :=
  let c : Config := ⟨width, nreg, memWords⟩
  if c.valid && imageValid c image then .ok (State.constructed c (Memory.ofImage width 0 image))
  else .error .configError

/-- A program padded to an image of `M` words with `0^W`, so that each pad word is a HALT (R334). -/
def padImage (width memWords : Nat) (words : List Trits) : List Trits :=
  words ++ List.replicate (memWords - words.length) (Trits.zeros width)

/-- `step()` as the host sees it: what the call returns and the state afterwards (R184, R192). The refused
case does not occur: no arm of `exec` refuses (DESIGN CHOICE, log entry 11, safe). -/
def stepCall (s : State) : CallResult × State :=
  match step s with
  | .next t => (.ok, t)
  | .fault .stepAfterFault => (.stepAfterFault, s)
  | .refused _ => (.ok, s)

/-- `RUNSTATE in {Ready, Running}` (R193). -/
def State.live (s : State) : Bool := decide (s.runState = .ready) || decide (s.runState = .running)

/-- The loop of `run` with `n` steps left of its bound and `k` taken (R193). -/
def runLoop : Nat → Nat → State → Nat × State
  | 0, k, s => (k, s)
  | n + 1, k, s => if s.live then runLoop n (k + 1) (stepCall s).2 else (k, s)

/-- `run(max_steps)`: what the call returns, the number of steps, and the state afterwards (R193). -/
def run (maxSteps : Nat) (s : State) : CallResult × Nat × State :=
  let r := runLoop maxSteps 0 s
  if r.2.runState = .faulted ∧ r.1 = 0 then (.stepAfterFault, 0, r.2) else (.ok, r.1, r.2)

/-- A `run` call with the bound the caller gave, if any; without one it is refused and changes nothing (R194). -/
def runCall (bound : Option Nat) (s : State) : Except HostError (CallResult × Nat × State) :=
  match bound with
  | some n => .ok (run n s)
  | none => .error .missingBound

/-- A run has ended when the machine is `Halted` or `Faulted` (R197). -/
def State.ended (s : State) : Bool := decide (s.runState = .halted) || decide (s.runState = .faulted)

/-- What `inspect` shows (R200, R201). -/
structure Inspection where
  runState : RunState
  fault : FaultCode
  pc : Word
  regs : List Word
  mem : List Word
  deriving DecidableEq, Repr

/-- `inspect`: every `x[i]` and every `mem[a]`, in every run state, changing nothing (R201). -/
def State.inspect (s : State) : Inspection where
  runState := s.runState
  fault := s.fault
  pc := s.pc
  regs := (List.range s.cfg.nreg).map fun i => s.reg i
  mem := (List.range s.cfg.memWords).map fun a => s.memRead a

/-- `step()` on instance `i` of several machines that the host drives side by side; each owns its own state
(R65, R198, R317). No result for an instance that does not exist. -/
def stepInstance (machines : List State) (i : Nat) : Option CallResult × List State :=
  match machines[i]? with
  | some s => (some (stepCall s).1, machines.set i (stepCall s).2)
  | none => (none, machines)

end Sys2Proof.Machine
end

