-- ==== Sys2Proof/Safety.lean ====
section
/-! DEFINITION. The terms the claims use: the invariant of every constructed machine, what an instruction writes,
and the causes of a fault in the order in which one cycle reports them (60_exceptions.md R305). -/

namespace Sys2Proof.Machine

/-- The canonical form of memory: addresses strictly rising and below `M`, every listed word `W` trits long and
other than the `0^W` that an unlisted address holds (R50, R53). -/
abbrev Memory.wf (width memWords : Nat) (m : Memory) : Prop :=
  m.Pairwise (fun p q => p.1 < q.1) ∧
    ∀ p ∈ m, p.1 < memWords ∧ p.2.trits.length = width ∧ p.2 ≠ Word.zero width

/-- The invariant: legal parameters (R7), `NREG` registers and a PC of `W` trits (R20, R21, R25), canonical
memory, and `FAULT = NONE` exactly when `RUNSTATE` is not `Faulted` (R32). -/
abbrev State.wf (s : State) : Prop :=
  s.cfg.valid = true ∧
    s.regs.length = s.cfg.nreg ∧
    (∀ r ∈ s.regs, r.trits.length = s.cfg.width) ∧
    s.pc.trits.length = s.cfg.width ∧
    Memory.wf s.cfg.width s.cfg.memWords s.mem ∧
    (s.fault = .none ↔ s.runState ≠ .faulted)

/-- Every register field in the list names a register (R24). -/
abbrev FieldsValid (s : State) (fields : List Int) : Prop := ∀ f ∈ fields, 0 ≤ f ∧ f < (s.cfg.nreg : Int)

/-- The integer names one of the `M` words (R51). -/
abbrev AddressInRange (s : State) (a : Int) : Prop := 0 ≤ a ∧ a < (s.cfg.memWords : Int)

/-- `|v| <= MAXPOS(W)` (R162). -/
abbrev FitsWord (s : State) (v : Int) : Prop := v.natAbs ≤ maxPos s.cfg.width

/-- The PC advance fits in `W` trits: `Int(pc) + 1 <= MAXPOS(W)` (R187). -/
abbrev PcAdvances (s : State) : Prop := s.pc.int + 1 ≤ (maxPos s.cfg.width : Int)

/-- `to_trits(Int(pc) + 1, W)` (R26). -/
def State.following (s : State) : Word := Word.ofInt s.cfg.width (s.pc.int + 1)

/-- A sequence written as the spec writes it, most significant trit first (R11). -/
def ofMst (t : List Trit) : Trits := t.reverse

/-- The fields of a word, most significant first, joined (R12, R74). -/
def joinFields : List Trits → Trits
  | [] => []
  | field :: rest => Trits.concat field (joinFields rest)

/-- The register an instruction writes, if it writes one (R22). -/
def destination : Instr → Option Int
  | .halt => none
  | .loadi a _ => some a
  | .loadm a _ => some a
  | .store _ _ => none
  | .move a _ => some a
  | .add a _ _ => some a
  | .sub a _ _ => some a
  | .mul a _ _ => some a
  | .neg a _ => some a
  | .and a _ _ => some a
  | .or a _ _ => some a
  | .jmp _ => none
  | .js _ _ _ => none
  | .sgn a _ => some a

/-- The memory operand of LOADM and STORE (R304). -/
def memoryOperand : Instr → Option Int
  | .halt => none
  | .loadi _ _ => none
  | .loadm _ k => some k
  | .store _ k => some k
  | .move _ _ => none
  | .add _ _ _ => none
  | .sub _ _ _ => none
  | .mul _ _ _ => none
  | .neg _ _ => none
  | .and _ _ _ => none
  | .or _ _ _ => none
  | .jmp _ => none
  | .js _ _ _ => none
  | .sgn _ _ => none

/-- The exact integer result that ADD, SUB and MUL must fit into a word (R245, R304). -/
def exactResult (s : State) : Instr → Option Int
  | .halt => none
  | .loadi _ _ => none
  | .loadm _ _ => none
  | .store _ _ => none
  | .move _ _ => none
  | .add _ b c => some ((s.reg b).int + (s.reg c).int)
  | .sub _ b c => some ((s.reg b).int - (s.reg c).int)
  | .mul _ b c => some ((s.reg b).int * (s.reg c).int)
  | .neg _ _ => none
  | .and _ _ _ => none
  | .or _ _ _ => none
  | .jmp _ => none
  | .js _ _ _ => none
  | .sgn _ _ => none

/-- The instruction ends with the PC advance: every one but HALT, JMP and a taken JS (R187). -/
def usesAdvance (s : State) : Instr → Bool
  | .halt => false
  | .loadi _ _ => true
  | .loadm _ _ => true
  | .store _ _ => true
  | .move _ _ => true
  | .add _ _ _ => true
  | .sub _ _ _ => true
  | .mul _ _ _ => true
  | .neg _ _ => true
  | .and _ _ _ => true
  | .or _ _ _ => true
  | .jmp _ => false
  | .js a t _ => decide ((s.reg a).int.sign ≠ t.toInt)
  | .sgn _ _ => true

/-- The first fault cause of an instruction, in the order 3 to 6 of R305. -/
def firstInstrFault (s : State) (i : Instr) : Option FaultCause :=
  if ¬ FieldsValid s i.registerFields then some .address
  else if (memoryOperand i).any (fun k => decide (¬ AddressInRange s k)) then some .address
  else if (exactResult s i).any (fun v => decide (¬ FitsWord s v)) then some .overflow
  else if usesAdvance s i ∧ ¬ PcAdvances s then some .overflow
  else none

/-- The first fault cause of a cycle, in the order of R305. -/
def firstFault (s : State) : Option FaultCause :=
  if ¬ AddressInRange s s.pc.int then some .address
  else
    match decode s.cfg.width (s.memRead s.pc.int.toNat) with
    | .invalid _ => some .invalidOpcode
    | .instr i => firstInstrFault s i

end Sys2Proof.Machine
end

