-- ==== Sys2Proof/Certificates/Slice0/Obligations.lean ====
section
/-! DEFINITION. The statements for the provers. Each formalises the rules of spec/ that its docstring names; in
`joinFields` and `ofMst` a word is written most significant field and trit first, as 30_encoding.md writes it. -/

open Sys2Proof Sys2Proof.Machine

/-- R102, R105: the full adder by value, its symmetry and its sign symmetry. -/
def Obligations.FullAdderSplitsTheSum : Prop :=
  ∀ a b cin : Trit,
    (Trit.addWithCarry a b cin).1.toInt = (a.toInt + b.toInt + cin.toInt + 1) % 3 - 1 ∧
    3 * (Trit.addWithCarry a b cin).2.toInt + (Trit.addWithCarry a b cin).1.toInt
      = a.toInt + b.toInt + cin.toInt ∧
    Trit.addWithCarry a b cin = Trit.addWithCarry b a cin ∧
    Trit.addWithCarry a b cin = Trit.addWithCarry a cin b ∧
    Trit.addWithCarry a.negate b.negate cin.negate
      = ((Trit.addWithCarry a b cin).1.negate, (Trit.addWithCarry a b cin).2.negate)

/-- R106, R107, R108 by value. -/
def Obligations.TritGatesAreMinMaxNegate : Prop :=
  ∀ a b : Trit,
    (Trit.and a b).toInt = min a.toInt b.toInt ∧
    (Trit.or a b).toInt = max a.toInt b.toInt ∧
    (Trit.not a).toInt = -a.toInt ∧ Trit.not a = Trit.negate a

/-- R150: `Int` is the sum of `t[i] * 3^i`. -/
def Obligations.IntIsTheWeightedSum : Prop :=
  ∀ t : Trits, Trits.int t = ((List.range t.length).map fun i => (t.getD i .zero).toInt * 3 ^ i).sum

/-- R156 in both directions. -/
def Obligations.IntConversionRoundTrips : Prop :=
  (∀ t : Trits, toTrits (Trits.int t) t.length = t) ∧
  (∀ (v : Int) (n : Nat), Trits.int (toTrits v n) = v)

/-- R152: range, injectivity and surjectivity at a fixed length. -/
def Obligations.IntIsABijectionAtFixedWidth : Prop :=
  (∀ t : Trits, -(maxPos t.length : Int) ≤ Trits.int t ∧ Trits.int t ≤ maxPos t.length) ∧
  (∀ t u : Trits, t.length = u.length → Trits.int t = Trits.int u → t = u) ∧
  (∀ (v : Int) (n : Nat), -(maxPos n : Int) ≤ v → v ≤ maxPos n →
    ∃ t : Trits, t.length = n ∧ Trits.int t = v)

/-- R153, R155: the canonical form of an integer. -/
def Obligations.CanonIsTheShortestForm : Prop :=
  ∀ v : Int,
    Trits.int (canon v) = v ∧
    (∀ t : Trits, Trits.int t = v → (canon v).length ≤ t.length) ∧
    (canon v).getLast? ≠ some .zero ∧
    (∀ n : Nat, (canon v).length ≤ n ↔ v.natAbs ≤ maxPos n)

/-- R158, R159, R161: the unsigned view and its inverse. -/
def Obligations.UnsignedViewRoundTrips : Prop :=
  (∀ t : Trits, (Trits.uint t : Int) = Trits.int t + maxPos t.length) ∧
  (∀ t : Trits, toUtrits (Trits.uint t) t.length = .ok t) ∧
  (∀ (v : Int) (n : Nat), 0 ≤ v → v ≤ (3 : Int) ^ n - 1 →
    ∃ t : Trits, toUtrits v n = .ok t ∧ t.length = n ∧ (Trits.uint t : Int) = v) ∧
  (∀ (v : Int) (n : Nat), v < 0 ∨ (3 : Int) ^ n ≤ v → toUtrits v n = .error .overflowError)

/-- R160: the most significant nonzero trit is the sign of the value. -/
def Obligations.SignIsTheSignOfInt : Prop :=
  ∀ t : Trits,
    (Trits.sign t).toInt = (Trits.int t).sign ∧
    (Trits.sign t = .zero ↔ t = Trits.zeros t.length) ∧
    (Trits.sign t ≠ .zero → ∃ (low : Trits) (k : Nat), t = low ++ [Trits.sign t] ++ Trits.zeros k)

/-- R164 for both views. -/
def Obligations.CompareReturnsTheSignOfTheDifference : Prop :=
  ∀ a b : Trits,
    (Trits.compare a b).toInt = (Trits.int a - Trits.int b).sign ∧
    (Trits.compareUnsigned a b).toInt = ((Trits.uint a : Int) - (Trits.uint b : Int)).sign

/-- R123: value and length of the ripple-carry sum. -/
def Obligations.SequenceAddIsExact : Prop :=
  ∀ a b : Trits,
    Trits.int (Trits.add a b) = Trits.int a + Trits.int b ∧
    (Trits.add a b).length = max a.length b.length
      + (if (Trits.ripple ((Trits.align a b).1.zip (Trits.align a b).2) .zero).2 = .zero then 0 else 1)

/-- R126, R127. -/
def Obligations.SequenceNegationNegatesInt : Prop :=
  ∀ t : Trits,
    (Trits.negate t).length = t.length ∧
    (∀ i, i < t.length → (Trits.negate t).getD i .zero = (t.getD i .zero).negate) ∧
    Trits.int (Trits.negate t) = -Trits.int t ∧
    Trits.negate (Trits.negate t) = t ∧
    (Trits.int (Trits.negate t)).natAbs ≤ maxPos t.length

/-- R128: the shift-and-add multiplier computes the integer product. -/
def Obligations.ShiftAndAddMultipliesExactly : Prop :=
  ∀ a b : Trits,
    Trits.multiply a b = toTrits (Trits.int a * Trits.int b) (a.length + b.length) ∧
    (Trits.multiply a b).length = a.length + b.length ∧
    Trits.int (Trits.multiply a b) = Trits.int a * Trits.int b

/-- R130: the gates on sequences of any lengths, the shorter extended with ZERO on the most significant side. -/
def Obligations.SequenceGatesActPerPosition : Prop :=
  ∀ a b : Trits,
    (Trits.and a b).length = max a.length b.length ∧
    (Trits.or a b).length = max a.length b.length ∧
    (∀ i, i < max a.length b.length →
      ((Trits.and a b).getD i .zero).toInt = min (a.getD i .zero).toInt (b.getD i .zero).toInt ∧
      ((Trits.or a b).getD i .zero).toInt = max (a.getD i .zero).toInt (b.getD i .zero).toInt) ∧
    Trits.not a = Trits.negate a

/-- R134 with the text form of R133. -/
def Obligations.TextFormRoundTrips : Prop :=
  (∀ t : Trits, Trits.ofChars (Trits.toChars t) = .ok t) ∧
  (∀ (s : List Char) (t : Trits), Trits.ofChars s = .ok t → Trits.toChars t = s ∧ t.length = s.length) ∧
  (∀ s : List Char, Trits.ofChars s = .error .decodeError ↔ ∃ c ∈ s, c ≠ '-' ∧ c ≠ '0' ∧ c ≠ '+')

/-- R165 for add, subtract and multiply. -/
def Obligations.UnsignedArithmeticIsByValue : Prop :=
  ∀ (a b : Trits) (op : Int → Int → Int) (f : Trits → Trits → Except LibError Trits),
    ((op = (· + ·) ∧ f = Trits.addUnsigned) ∨ (op = (· - ·) ∧ f = Trits.subtractUnsigned) ∨
      (op = (· * ·) ∧ f = Trits.multiplyUnsigned)) →
    (0 ≤ op (Trits.uint (Trits.uext (max a.length b.length) a)) (Trits.uint (Trits.uext (max a.length b.length) b)) →
      op (Trits.uint (Trits.uext (max a.length b.length) a)) (Trits.uint (Trits.uext (max a.length b.length) b))
        ≤ (3 : Int) ^ max a.length b.length - 1 →
      ∃ t : Trits, f a b = .ok t ∧ t.length = max a.length b.length ∧
        (Trits.uint t : Int)
          = op (Trits.uint (Trits.uext (max a.length b.length) a)) (Trits.uint (Trits.uext (max a.length b.length) b))) ∧
    (op (Trits.uint (Trits.uext (max a.length b.length) a)) (Trits.uint (Trits.uext (max a.length b.length) b)) < 0 ∨
      (3 : Int) ^ max a.length b.length
        ≤ op (Trits.uint (Trits.uext (max a.length b.length) a)) (Trits.uint (Trits.uext (max a.length b.length) b)) →
      f a b = .error .overflowError) ∧
    Trits.uint (Trits.uext (max a.length b.length) a) = Trits.uint a ∧
    Trits.uint (Trits.uext (max a.length b.length) b) = Trits.uint b

/-- R125: the word adder by value and its overflow output. -/
def Obligations.WordAdderCarryEquation : Prop :=
  ∀ (n : Nat) (a b : Word) (cin : Trit), a.trits.length = n → b.trits.length = n →
    a.int + b.int + cin.toInt = (addw a b cin).cout.toInt * 3 ^ n + (addw a b cin).sum.int ∧
    (addw a b cin).sum.trits.length = n ∧
    (adderOverflow (addw a b cin) = false ↔ (a.int + b.int + cin.toInt).natAbs ≤ maxPos n) ∧
    (adderOverflow (addw a b cin) = true ↔ (addw a b cin).cout ≠ .zero)

/-- R129: the halves of the product and the overflow output. -/
def Obligations.WordMultiplierOverflowIsExact : Prop :=
  ∀ (n : Nat) (a b : Word), a.trits.length = n → b.trits.length = n →
    (mulw a b).p = toTrits (a.int * b.int) (2 * n) ∧
    (mulw a b).p.length = 2 * n ∧
    (mulw a b).p = Trits.concat (mulw a b).hi (mulw a b).lo.trits ∧
    (mulw a b).lo.trits.length = n ∧
    (multiplierOverflow (mulw a b) = true ↔ (mulw a b).hi ≠ Trits.zeros n) ∧
    (multiplierOverflow (mulw a b) = false → (mulw a b).lo.int = a.int * b.int) ∧
    (multiplierOverflow (mulw a b) = true →
      maxPos n < (a.int * b.int).natAbs ∧ (mulw a b).lo.int ≠ a.int * b.int)

/-- R258: the laws of the gates on words of one width. -/
def Obligations.WordGateLawsHold : Prop :=
  ∀ (n : Nat) (a b c : Word), a.trits.length = n → b.trits.length = n → c.trits.length = n →
    andw a b = andw b a ∧ orw a b = orw b a ∧
    andw (andw a b) c = andw a (andw b c) ∧ orw (orw a b) c = orw a (orw b c) ∧
    andw a a = a ∧ orw a a = a ∧
    andw a (orw b c) = orw (andw a b) (andw a c) ∧ orw a (andw b c) = andw (orw a b) (orw a c) ∧
    notw (andw a b) = orw (notw a) (notw b) ∧ notw (orw a b) = andw (notw a) (notw b) ∧
    andw a ⟨List.replicate n .positive⟩ = a ∧ orw a ⟨List.replicate n .negative⟩ = a ∧
    notw a = negw a ∧
    (∀ i, i < n →
      (andw a b).trits.getD i .zero = Trit.and (a.trits.getD i .zero) (b.trits.getD i .zero) ∧
      (orw a b).trits.getD i .zero = Trit.or (a.trits.getD i .zero) (b.trits.getD i .zero))

/-- R180, R181: the register write check on integers and on sequences. -/
def Obligations.RegisterWriteRejectsOverflow : Prop :=
  ∀ (n : Nat) (old : Word) (v : Int) (t : Trits),
    (v.natAbs ≤ maxPos n →
      writeRegister n old v = (⟨toTrits v n⟩, none) ∧ (toTrits v n).length = n ∧ Trits.int (toTrits v n) = v) ∧
    (maxPos n < v.natAbs → writeRegister n old v = (old, some .overflowError)) ∧
    writeRegisterTrits n old t = writeRegister n old (Trits.int t) ∧
    (t.length = n → writeRegisterTrits n old t = (⟨t⟩, none))

/-- R166: word arithmetic by the units of the block. -/
def Obligations.FixedWidthArithmeticIsExactOrRejected : Prop :=
  ∀ (n : Nat) (a b : Word), a.trits.length = n → b.trits.length = n →
    ((a.int + b.int).natAbs ≤ maxPos n → Word.add a b = .ok (Word.ofInt n (a.int + b.int))) ∧
    (maxPos n < (a.int + b.int).natAbs → Word.add a b = .error .overflowError) ∧
    ((a.int - b.int).natAbs ≤ maxPos n → Word.subtract a b = .ok (Word.ofInt n (a.int - b.int))) ∧
    (maxPos n < (a.int - b.int).natAbs → Word.subtract a b = .error .overflowError) ∧
    ((a.int * b.int).natAbs ≤ maxPos n → Word.multiply a b = .ok (Word.ofInt n (a.int * b.int))) ∧
    (maxPos n < (a.int * b.int).natAbs → Word.multiply a b = .error .overflowError)

/-- Words written out trit by trit from the formats of R74 and the map of R78 (95_test_vectors.md V7), at W = 9. -/
def Obligations.SampleWordsDecode : Prop :=
  decode 9 ⟨ofMst [.zero, .zero, .zero, .zero, .zero, .zero, .zero, .zero, .zero]⟩ = .instr .halt ∧
  decode 9 ⟨ofMst [.positive, .negative, .negative, .positive, .negative, .zero, .zero, .zero, .positive]⟩
    = .instr (.add 2 0 1) ∧
  decode 9 ⟨ofMst [.zero, .positive, .negative, .zero, .positive, .positive, .negative, .positive, .negative]⟩
    = .instr (.loadm 1 20) ∧
  decode 9 ⟨ofMst [.positive, .positive, .zero, .zero, .zero, .negative, .positive, .negative, .positive]⟩
    = .instr (.js 0 .negative 7) ∧
  decode 9 ⟨ofMst [.positive, .zero, .zero, .positive, .negative, .zero, .zero, .zero, .positive]⟩
    = .instr (.and 2 0 1) ∧
  decode 9 ⟨ofMst [.negative, .zero, .zero, .zero, .zero, .zero, .zero, .zero, .zero]⟩
    = .invalid .reservedOpcode ∧
  decode 9 ⟨ofMst [.zero, .positive, .positive, .positive, .zero, .zero, .positive, .zero, .positive]⟩
    = .invalid .nonzeroField

/-- Decoding inverts encoding for every instruction whose operands fit, at every width of R7 (R74, R79). -/
def Obligations.DecodeOfEncodeIsTheInstruction : Prop :=
  ∀ (width : Nat) (i : Instr), 9 ≤ width → i.wf width = true →
    decode width (encode width i) = .instr i ∧ (encode width i).trits.length = width

/-- R82: a word that decodes to an instruction is that instruction's one encoding, and its operands fit. -/
def Obligations.EveryInstructionHasOneEncoding : Prop :=
  ∀ (width : Nat) (w : Word) (i : Instr), 9 ≤ width → w.trits.length = width → decode width w = .instr i →
    i.wf width = true ∧ w = encode width i

/-- R80: which words decode to Invalid. -/
def Obligations.InvalidWordsAreExactlyTheIllegalOnes : Prop :=
  ∀ (width : Nat) (w : Word), 9 ≤ width → w.trits.length = width →
    ((∃ why, decode width w = .invalid why) ↔
      (Trits.int (Trits.slice w.trits (width - 1) (width - 3)) < 0 ∨
        (Trits.int (Trits.slice w.trits (width - 1) (width - 3)) = 0 ∧
          Trits.slice w.trits (width - 4) 0 ≠ Trits.zeros (width - 3)) ∨
        (Trits.int (Trits.slice w.trits (width - 1) (width - 3)) ∈ [(4 : Int), 8, 13] ∧
          Trits.slice w.trits (width - 8) 0 ≠ Trits.zeros (width - 7)) ∨
        (Trits.int (Trits.slice w.trits (width - 1) (width - 3)) ∈ [(5 : Int), 6, 7, 9, 10] ∧
          width ≠ 9 ∧ Trits.slice w.trits (width - 10) 0 ≠ Trits.zeros (width - 9)) ∨
        (Trits.int (Trits.slice w.trits (width - 1) (width - 3)) = 11 ∧
          Trits.slice w.trits (width - 4) (width - 5) ≠ Trits.zeros 2)))

/-- R9, R36, R332: which constructions are refused, and every piece of state after one that is not. -/
def Obligations.ConstructionGivesTheResetState : Prop :=
  ∀ (width nreg memWords : Nat) (image : List Trits),
    ((9 ≤ width ∧ 1 ≤ nreg ∧ nreg ≤ 5 ∧ 1 ≤ memWords ∧ memWords ≤ maxPos width + 1 ∧
        image.length = memWords ∧ ∀ t ∈ image, t.length = width) →
      ∃ s : State, construct width nreg memWords image = .ok s ∧
        s.cfg = ⟨width, nreg, memWords⟩ ∧ s.regs.length = nreg ∧
        (∀ n, n < nreg → s.regs[n]? = some (Word.zero width)) ∧
        s.pc = Word.zero width ∧
        (∀ (a : Nat) (h : a < image.length), s.memRead a = ⟨image[a]⟩) ∧
        s.runState = .ready ∧ s.fault = .none ∧ s.wf) ∧
    (¬ (9 ≤ width ∧ 1 ≤ nreg ∧ nreg ≤ 5 ∧ 1 ≤ memWords ∧ memWords ≤ maxPos width + 1 ∧
        image.length = memWords ∧ ∀ t ∈ image, t.length = width) →
      construct width nreg memWords image = .error .configError)

/-- The invariant holds at State.reset, whose parameters and image are the model's choice (log entries 1 and 2). -/
def Obligations.ResetMeetsTheInvariant : Prop :=
  State.wf State.reset ∧ State.reset.cfg = ⟨9, 5, 27⟩ ∧ State.reset.pc = Word.zero 9 ∧
    State.reset.regs = List.replicate 5 (Word.zero 9) ∧ State.reset.runState = .ready ∧
    State.reset.fault = .none ∧
    construct 9 5 27 (List.replicate 27 (Trits.zeros 9)) = .ok State.reset

/-- The invariant of R7, R20, R21, R25, R32, R50 is kept by every step, from every state that meets it. -/
def Obligations.EveryStepKeepsTheInvariant : Prop :=
  ∀ s t : State, s.wf → step s = .next t → t.wf ∧ t.cfg = s.cfg

/-- R185, R186: a step from Ready or Running runs the instruction whose word stands at the PC, in Running. -/
def Obligations.StepRunsTheDecodedInstruction : Prop :=
  ∀ (s : State) (i : Instr), AddressInRange s s.pc.int →
    decode s.cfg.width (s.memRead s.pc.int.toNat) = .instr i →
    (s.runState = .running → step s = exec i s) ∧
    (s.runState = .ready → step s = exec i (s.setRunState .running))

/-- R189, R190, R305: the fault a step takes is the first cause in the order of R305, and without a cause it takes none. -/
def Obligations.FirstCauseIsTheFaultReported : Prop :=
  ∀ s : State, s.wf → s.live = true →
    (∀ r, firstFault s = some r → step s = .next (takeFault (s.setRunState .running) r)) ∧
    (firstFault s = none → ∃ t, step s = .next t ∧ t.fault = .none ∧ t.runState ≠ .faulted)

/-- R183, R184: the transitions of RUNSTATE. -/
def Obligations.RunStateTransitionsAreTheListedOnes : Prop :=
  ∀ s : State, s.wf →
    (step s = .fault .stepAfterFault ↔ s.runState = .faulted) ∧
    (∀ t, step s = .next t →
      (s.runState = .halted ∧ t = s) ∨
      (s.live = true ∧ t.runState = .running ∧ firstFault s = none ∧ fetchDecode s ≠ .ok .halt) ∨
      (s.live = true ∧ t.runState = .halted ∧ fetchDecode s = .ok .halt) ∨
      (s.live = true ∧ t.runState = .faulted ∧ firstFault s ≠ none)) ∧
    (s.runState ≠ .faulted → ∃ t, step s = .next t)

/-- R191, R192: no call of step or run changes a Halted or Faulted machine. -/
def Obligations.StoppedMachinesStayStopped : Prop :=
  ∀ (s : State) (n : Nat),
    (s.runState = .halted → (stepCall s).1 = .ok ∧ (fun t => (stepCall t).2)^[n] s = s ∧ run n s = (.ok, 0, s)) ∧
    (s.runState = .faulted →
      (stepCall s).1 = .stepAfterFault ∧ (fun t => (stepCall t).2)^[n] s = s ∧ run n s = (.stepAfterFault, 0, s))

/-- R193: what a run does, by the steps it takes. -/
def Obligations.RunStopsAtItsBoundOrAtAStop : Prop :=
  ∀ (s : State) (n : Nat),
    (run n s).2.1 ≤ n ∧
    (run n s).2.2 = (fun t => (stepCall t).2)^[(run n s).2.1] s ∧
    (∀ j, j < (run n s).2.1 → ((fun t => (stepCall t).2)^[j] s).live = true) ∧
    ((run n s).2.1 < n → (run n s).2.2.ended = true) ∧
    ((run n s).1 = .stepAfterFault ↔ s.runState = .faulted)

/-- R193: a run whose budget ran out is continued by a later run. -/
def Obligations.LaterRunContinuesAnEarlierOne : Prop :=
  ∀ (s : State) (m n : Nat),
    (run (m + n) s).2.2 = (run n (run m s).2.2).2.2 ∧
    (run (m + n) s).2.1 = (run m s).2.1 + (run n (run m s).2.2).2.1

/-- R24: every instruction that names an invalid register index faults ADDRESS and changes nothing else. -/
def Obligations.InvalidRegisterFieldFaults : Prop :=
  ∀ (s : State) (i : Instr), (∃ f ∈ i.registerFields, f < 0 ∨ (s.cfg.nreg : Int) ≤ f) →
    exec i s = .next (takeFault s .address)

/-- R52: a step that changes a memory word executed a STORE to that word's address. -/
def Obligations.OnlyStoreWritesMemory : Prop :=
  ∀ s t : State, step s = .next t → ∀ b : Nat, t.memRead b ≠ s.memRead b →
    ∃ a k, fetchDecode s = .ok (.store a k) ∧ k = (b : Int)

/-- R182: a step commits at most one general-register write, and never a register and a memory write together. -/
def Obligations.OneWritePerStep : Prop :=
  ∀ s t : State, step s = .next t →
    (∃ n : Nat, ∀ m : Nat, m ≠ n → t.regs[m]? = s.regs[m]?) ∧
    ((∃ m : Nat, t.regs[m]? ≠ s.regs[m]?) → ∀ b : Nat, t.memRead b = s.memRead b)

/-- R62: a word stored is what the next load and the next fetch from its address see. -/
def Obligations.StoredWordIsSeenByTheNextFetch : Prop :=
  ∀ (s t : State) (a k : Int), s.wf → FieldsValid s [a] → AddressInRange s k → PcAdvances s →
    exec (.store a k) s = .next t →
    t.memRead k.toNat = s.reg a ∧
    (∀ p : Word, p.int = k →
      fetchDecode (t.setPc p) = (match decode s.cfg.width (s.reg a) with
        | .instr i => .ok i
        | .invalid _ => .error .invalidOpcode))

/-- R65, R198: a step of one machine instance leaves every other unchanged. -/
def Obligations.InstancesShareNothing : Prop :=
  ∀ (machines : List State) (i j : Nat), i ≠ j →
    (stepInstance machines i).2[j]? = machines[j]? ∧
    (stepInstance machines i).2.length = machines.length ∧
    (∀ s, machines[i]? = some s → (stepInstance machines i).2[i]? = some (stepCall s).2)

/-- R210: LOADI, its word, its effect and its faults. -/
def Obligations.LoadiLoadsTheImmediate : Prop :=
  (∀ (width : Nat) (a k : Int), 9 ≤ width → (Instr.loadi a k).wf width = true →
    decode width ⟨joinFields [ofMst [.zero, .zero, .positive], toTrits a 2, toTrits k (width - 5)]⟩
      = .instr (.loadi a k)) ∧
  (∀ (s : State) (a k : Int), wordFieldFits s.cfg.width k = true → FieldsValid s [a] → PcAdvances s →
    exec (.loadi a k) s = .next ((s.setReg a.toNat (Word.ofInt s.cfg.width k)).setPc s.following)) ∧
  (∀ (s : State) (a k : Int), wordFieldFits s.cfg.width k = true → FieldsValid s [a] → ¬ PcAdvances s →
    exec (.loadi a k) s = .next (takeFault s .overflow)) ∧
  (∀ (s : State) (a k : Int), ¬ FieldsValid s [a] →
    exec (.loadi a k) s = .next (takeFault s .address))

/-- R213: LOADM, its word, its effect and its faults. -/
def Obligations.LoadmLoadsTheMemoryWord : Prop :=
  (∀ (width : Nat) (a k : Int), 9 ≤ width → (Instr.loadm a k).wf width = true →
    decode width ⟨joinFields [ofMst [.zero, .positive, .negative], toTrits a 2, toTrits k (width - 5)]⟩
      = .instr (.loadm a k)) ∧
  (∀ (s : State) (a k : Int), FieldsValid s [a] → AddressInRange s k → PcAdvances s →
    exec (.loadm a k) s = .next ((s.setReg a.toNat (s.memRead k.toNat)).setPc s.following)) ∧
  (∀ (s : State) (a k : Int), FieldsValid s [a] → AddressInRange s k → ¬ PcAdvances s →
    exec (.loadm a k) s = .next (takeFault s .overflow)) ∧
  (∀ (s : State) (a k : Int), FieldsValid s [a] → ¬ AddressInRange s k →
    exec (.loadm a k) s = .next (takeFault s .address)) ∧
  (∀ (s : State) (a k : Int), ¬ FieldsValid s [a] →
    exec (.loadm a k) s = .next (takeFault s .address))

/-- R216: STORE, its word, its effect and its faults. -/
def Obligations.StoreWritesTheMemoryWord : Prop :=
  (∀ (width : Nat) (a k : Int), 9 ≤ width → (Instr.store a k).wf width = true →
    decode width ⟨joinFields [ofMst [.zero, .positive, .zero], toTrits a 2, toTrits k (width - 5)]⟩
      = .instr (.store a k)) ∧
  (∀ (s : State) (a k : Int), FieldsValid s [a] → AddressInRange s k → PcAdvances s →
    exec (.store a k) s = .next ((s.memWrite k.toNat (s.reg a)).setPc s.following)) ∧
  (∀ (s : State) (a k : Int), FieldsValid s [a] → AddressInRange s k → ¬ PcAdvances s →
    exec (.store a k) s = .next (takeFault s .overflow)) ∧
  (∀ (s : State) (a k : Int), FieldsValid s [a] → ¬ AddressInRange s k →
    exec (.store a k) s = .next (takeFault s .address)) ∧
  (∀ (s : State) (a k : Int), ¬ FieldsValid s [a] →
    exec (.store a k) s = .next (takeFault s .address))

/-- R219: MOVE, its word, its effect and its faults. -/
def Obligations.MoveCopiesTheRegister : Prop :=
  (∀ (width : Nat) (a b : Int), 9 ≤ width → (Instr.move a b).wf width = true →
    decode width ⟨joinFields [ofMst [.zero, .positive, .positive], toTrits a 2, toTrits b 2, Trits.zeros (width - 7)]⟩
      = .instr (.move a b)) ∧
  (∀ (s : State) (a b : Int), FieldsValid s [a, b] → PcAdvances s →
    exec (.move a b) s = .next ((s.setReg a.toNat (s.reg b)).setPc s.following)) ∧
  (∀ (s : State) (a b : Int), FieldsValid s [a, b] → ¬ PcAdvances s →
    exec (.move a b) s = .next (takeFault s .overflow)) ∧
  (∀ (s : State) (a b : Int), ¬ FieldsValid s [a, b] →
    exec (.move a b) s = .next (takeFault s .address))

/-- R230, R245: ADD, its word, its effect and its faults. -/
def Obligations.AddGivesTheExactSumOrFaults : Prop :=
  (∀ (width : Nat) (a b c : Int), 9 ≤ width → (Instr.add a b c).wf width = true →
    decode width ⟨joinFields [ofMst [.positive, .negative, .negative], toTrits a 2, toTrits b 2, toTrits c 2, Trits.zeros (width - 9)]⟩
      = .instr (.add a b c)) ∧
  (∀ (s : State) (a b c : Int), s.wf → FieldsValid s [a, b, c] → FitsWord s ((s.reg b).int + (s.reg c).int) → PcAdvances s →
    exec (.add a b c) s = .next ((s.setReg a.toNat (Word.ofInt s.cfg.width ((s.reg b).int + (s.reg c).int))).setPc s.following)) ∧
  (∀ (s : State) (a b c : Int), s.wf → FieldsValid s [a, b, c] → ¬ FitsWord s ((s.reg b).int + (s.reg c).int) →
    exec (.add a b c) s = .next (takeFault s .overflow)) ∧
  (∀ (s : State) (a b c : Int), s.wf → FieldsValid s [a, b, c] → FitsWord s ((s.reg b).int + (s.reg c).int) → ¬ PcAdvances s →
    exec (.add a b c) s = .next (takeFault s .overflow)) ∧
  (∀ (s : State) (a b c : Int), ¬ FieldsValid s [a, b, c] →
    exec (.add a b c) s = .next (takeFault s .address))

/-- R233, R245: SUB, its word, its effect and its faults. -/
def Obligations.SubGivesTheExactDifferenceOrFaults : Prop :=
  (∀ (width : Nat) (a b c : Int), 9 ≤ width → (Instr.sub a b c).wf width = true →
    decode width ⟨joinFields [ofMst [.positive, .negative, .zero], toTrits a 2, toTrits b 2, toTrits c 2, Trits.zeros (width - 9)]⟩
      = .instr (.sub a b c)) ∧
  (∀ (s : State) (a b c : Int), s.wf → FieldsValid s [a, b, c] → FitsWord s ((s.reg b).int - (s.reg c).int) → PcAdvances s →
    exec (.sub a b c) s = .next ((s.setReg a.toNat (Word.ofInt s.cfg.width ((s.reg b).int - (s.reg c).int))).setPc s.following)) ∧
  (∀ (s : State) (a b c : Int), s.wf → FieldsValid s [a, b, c] → ¬ FitsWord s ((s.reg b).int - (s.reg c).int) →
    exec (.sub a b c) s = .next (takeFault s .overflow)) ∧
  (∀ (s : State) (a b c : Int), s.wf → FieldsValid s [a, b, c] → FitsWord s ((s.reg b).int - (s.reg c).int) → ¬ PcAdvances s →
    exec (.sub a b c) s = .next (takeFault s .overflow)) ∧
  (∀ (s : State) (a b c : Int), ¬ FieldsValid s [a, b, c] →
    exec (.sub a b c) s = .next (takeFault s .address))

/-- R236, R245: MUL, its word, its effect and its faults. -/
def Obligations.MulGivesTheExactProductOrFaults : Prop :=
  (∀ (width : Nat) (a b c : Int), 9 ≤ width → (Instr.mul a b c).wf width = true →
    decode width ⟨joinFields [ofMst [.positive, .negative, .positive], toTrits a 2, toTrits b 2, toTrits c 2, Trits.zeros (width - 9)]⟩
      = .instr (.mul a b c)) ∧
  (∀ (s : State) (a b c : Int), s.wf → FieldsValid s [a, b, c] → FitsWord s ((s.reg b).int * (s.reg c).int) → PcAdvances s →
    exec (.mul a b c) s = .next ((s.setReg a.toNat (Word.ofInt s.cfg.width ((s.reg b).int * (s.reg c).int))).setPc s.following)) ∧
  (∀ (s : State) (a b c : Int), s.wf → FieldsValid s [a, b, c] → ¬ FitsWord s ((s.reg b).int * (s.reg c).int) →
    exec (.mul a b c) s = .next (takeFault s .overflow)) ∧
  (∀ (s : State) (a b c : Int), s.wf → FieldsValid s [a, b, c] → FitsWord s ((s.reg b).int * (s.reg c).int) → ¬ PcAdvances s →
    exec (.mul a b c) s = .next (takeFault s .overflow)) ∧
  (∀ (s : State) (a b c : Int), ¬ FieldsValid s [a, b, c] →
    exec (.mul a b c) s = .next (takeFault s .address))

/-- R239: NEG (also NOT, R256), its word, its effect and its faults. -/
def Obligations.NegNegatesEveryTrit : Prop :=
  (∀ (width : Nat) (a b : Int), 9 ≤ width → (Instr.neg a b).wf width = true →
    decode width ⟨joinFields [ofMst [.positive, .zero, .negative], toTrits a 2, toTrits b 2, Trits.zeros (width - 7)]⟩
      = .instr (.neg a b)) ∧
  (∀ (s : State) (a b : Int), s.wf → FieldsValid s [a, b] → PcAdvances s →
    exec (.neg a b) s = .next ((s.setReg a.toNat ⟨(List.range s.cfg.width).map fun n => ((s.reg b).trits.getD n .zero).negate⟩).setPc s.following)) ∧
  (∀ (s : State) (a b : Int), FieldsValid s [a, b] → ¬ PcAdvances s →
    exec (.neg a b) s = .next (takeFault s .overflow)) ∧
  (∀ (s : State) (a b : Int), ¬ FieldsValid s [a, b] →
    exec (.neg a b) s = .next (takeFault s .address))

/-- R242: SGN, its word, its effect and its faults. -/
def Obligations.SgnWritesTheSign : Prop :=
  (∀ (width : Nat) (a b : Int), 9 ≤ width → (Instr.sgn a b).wf width = true →
    decode width ⟨joinFields [ofMst [.positive, .positive, .positive], toTrits a 2, toTrits b 2, Trits.zeros (width - 7)]⟩
      = .instr (.sgn a b)) ∧
  (∀ (s : State) (a b : Int), s.wf → FieldsValid s [a, b] → PcAdvances s →
    exec (.sgn a b) s = .next ((s.setReg a.toNat (Word.ofInt s.cfg.width (s.reg b).int.sign)).setPc s.following)) ∧
  (∀ (s : State) (a b : Int), FieldsValid s [a, b] → ¬ PcAdvances s →
    exec (.sgn a b) s = .next (takeFault s .overflow)) ∧
  (∀ (s : State) (a b : Int), ¬ FieldsValid s [a, b] →
    exec (.sgn a b) s = .next (takeFault s .address))

/-- R250: AND, its word, its effect and its faults. -/
def Obligations.AndIsMinAtEveryTrit : Prop :=
  (∀ (width : Nat) (a b c : Int), 9 ≤ width → (Instr.and a b c).wf width = true →
    decode width ⟨joinFields [ofMst [.positive, .zero, .zero], toTrits a 2, toTrits b 2, toTrits c 2, Trits.zeros (width - 9)]⟩
      = .instr (.and a b c)) ∧
  (∀ (s : State) (a b c : Int), s.wf → FieldsValid s [a, b, c] → PcAdvances s →
    exec (.and a b c) s = .next ((s.setReg a.toNat ⟨(List.range s.cfg.width).map fun n =>
        Trit.ofSign (min ((s.reg b).trits.getD n .zero).toInt ((s.reg c).trits.getD n .zero).toInt)⟩).setPc s.following)) ∧
  (∀ (s : State) (a b c : Int), FieldsValid s [a, b, c] → ¬ PcAdvances s →
    exec (.and a b c) s = .next (takeFault s .overflow)) ∧
  (∀ (s : State) (a b c : Int), ¬ FieldsValid s [a, b, c] →
    exec (.and a b c) s = .next (takeFault s .address))

/-- R253: OR, its word, its effect and its faults. -/
def Obligations.OrIsMaxAtEveryTrit : Prop :=
  (∀ (width : Nat) (a b c : Int), 9 ≤ width → (Instr.or a b c).wf width = true →
    decode width ⟨joinFields [ofMst [.positive, .zero, .positive], toTrits a 2, toTrits b 2, toTrits c 2, Trits.zeros (width - 9)]⟩
      = .instr (.or a b c)) ∧
  (∀ (s : State) (a b c : Int), s.wf → FieldsValid s [a, b, c] → PcAdvances s →
    exec (.or a b c) s = .next ((s.setReg a.toNat ⟨(List.range s.cfg.width).map fun n =>
        Trit.ofSign (max ((s.reg b).trits.getD n .zero).toInt ((s.reg c).trits.getD n .zero).toInt)⟩).setPc s.following)) ∧
  (∀ (s : State) (a b c : Int), FieldsValid s [a, b, c] → ¬ PcAdvances s →
    exec (.or a b c) s = .next (takeFault s .overflow)) ∧
  (∀ (s : State) (a b c : Int), ¬ FieldsValid s [a, b, c] →
    exec (.or a b c) s = .next (takeFault s .address))

/-- R260: JMP, its word, its effect, and the fault of the fetch from a target that is no address. -/
def Obligations.JmpGoesToItsTarget : Prop :=
  (∀ (width : Nat) (k : Int), 9 ≤ width → (Instr.jmp k).wf width = true →
    decode width ⟨joinFields [ofMst [.positive, .positive, .negative], Trits.zeros 2, toTrits k (width - 5)]⟩
      = .instr (.jmp k)) ∧
  (∀ (width : Nat) (z : Trits) (k : Int), 9 ≤ width → wordFieldFits width k = true → z.length = 2 →
    z ≠ Trits.zeros 2 →
    decode width ⟨joinFields [ofMst [.positive, .positive, .negative], z, toTrits k (width - 5)]⟩
      = .invalid .nonzeroField) ∧
  (∀ (s : State) (k : Int), wordFieldFits s.cfg.width k = true →
    exec (.jmp k) s = .next (s.setPc (Word.ofInt s.cfg.width k))) ∧
  (∀ (s : State) (k : Int), wordFieldFits s.cfg.width k = true → ¬ AddressInRange s k → s.runState = .running →
    step (s.setPc (Word.ofInt s.cfg.width k))
      = .next (takeFault (s.setPc (Word.ofInt s.cfg.width k)) .address))

/-- R263: JS, its word, its two outcomes and its faults. -/
def Obligations.JsJumpsWhenTheSignMatches : Prop :=
  (∀ (width : Nat) (a : Int) (c : Trit) (k : Int), 9 ≤ width → (Instr.js a c k).wf width = true →
    decode width ⟨joinFields [ofMst [.positive, .positive, .zero], toTrits a 2, [c], toTrits k (width - 6)]⟩
      = .instr (.js a c k)) ∧
  (∀ (s : State) (a : Int) (c : Trit) (k : Int), s.wf → branchFieldFits s.cfg.width k = true → FieldsValid s [a] → (s.reg a).int.sign = c.toInt →
    exec (.js a c k) s = .next (s.setPc (Word.ofInt s.cfg.width k))) ∧
  (∀ (s : State) (a : Int) (c : Trit) (k : Int), FieldsValid s [a] → (s.reg a).int.sign ≠ c.toInt → PcAdvances s →
    exec (.js a c k) s = .next (s.setPc s.following)) ∧
  (∀ (s : State) (a : Int) (c : Trit) (k : Int), FieldsValid s [a] → (s.reg a).int.sign ≠ c.toInt → ¬ PcAdvances s →
    exec (.js a c k) s = .next (takeFault s .overflow)) ∧
  (∀ (s : State) (a : Int) (c : Trit) (k : Int), ¬ FieldsValid s [a] →
    exec (.js a c k) s = .next (takeFault s .address)) ∧
  (∀ (s : State) (k : Int), branchFieldFits s.cfg.width k = true → ¬ AddressInRange s k → s.runState = .running →
    step (s.setPc (Word.ofInt s.cfg.width k))
      = .next (takeFault (s.setPc (Word.ofInt s.cfg.width k)) .address))

/-- R266: HALT, its word and its effect. -/
def Obligations.HaltStopsAndKeepsEverything : Prop :=
  (∀ width : Nat, 9 ≤ width → decode width (Word.zero width) = .instr .halt) ∧
  (∀ (width : Nat) (w : Word), 9 ≤ width → w.trits.length = width →
    Trits.slice w.trits (width - 1) (width - 3) = Trits.zeros 3 → w ≠ Word.zero width →
    decode width w = .invalid .nonzeroField) ∧
  (∀ s : State, exec .halt s = .next { s with runState := .halted }) ∧
  (∀ s : State, s.runState = .running → AddressInRange s s.pc.int → 9 ≤ s.cfg.width →
    s.memRead s.pc.int.toNat = Word.zero s.cfg.width → step s = .next { s with runState := .halted })

/-- The frame of the instructions with a destination register: LOADI, LOADM, MOVE, ADD, SUB, MUL, NEG, AND, OR, SGN. -/
def Obligations.FrameOfRegisterInstructions : Prop :=
  ∀ (i : Instr) (d : Int) (s t : State), destination i = some d → exec i s = .next t →
    t.cfg = s.cfg ∧ t.regs.length = s.regs.length ∧
    (∀ n : Nat, n ≠ d.toNat → t.regs[n]? = s.regs[n]?) ∧
    (∀ b : Nat, t.memRead b = s.memRead b) ∧
    ((t.runState = s.runState ∧ t.fault = s.fault) ∨ t = takeFault s .address ∨ t = takeFault s .overflow)

/-- The frame of STORE. -/
def Obligations.FrameOfStore : Prop :=
  ∀ (a k : Int) (s t : State), exec (.store a k) s = .next t →
    t.cfg = s.cfg ∧ t.regs = s.regs ∧
    (∀ ea : Nat, effectiveAddress s k = .ok ea → ∀ b : Nat, b ≠ ea → t.memRead b = s.memRead b) ∧
    (∀ r, effectiveAddress s k = .error r → t = takeFault s .address) ∧
    ((t.runState = s.runState ∧ t.fault = s.fault) ∨ t = takeFault s .address ∨ t = takeFault s .overflow)

/-- The frame of HALT, JMP and JS. -/
def Obligations.FrameOfControlInstructions : Prop :=
  ∀ (s t : State),
    (exec .halt s = .next t →
      t.cfg = s.cfg ∧ t.regs = s.regs ∧ t.pc = s.pc ∧ t.fault = s.fault ∧ ∀ b : Nat, t.memRead b = s.memRead b) ∧
    (∀ i : Instr, ((∃ k, i = .jmp k) ∨ ∃ a c k, i = .js a c k) → exec i s = .next t →
      t.cfg = s.cfg ∧ t.regs = s.regs ∧ (∀ b : Nat, t.memRead b = s.memRead b) ∧
      ((t.runState = s.runState ∧ t.fault = s.fault) ∨ t = takeFault s .address ∨ t = takeFault s .overflow))

/-- R85 for the word of one instruction, given as an Instr: when there is one, and what it is. -/
def Obligations.AssembledWordsDecodeBack : Prop :=
  ∀ (width : Nat) (i : Instr), 9 ≤ width →
    (∀ w, Asm.wordOf width i = .ok w → w.trits.length = width ∧ decode width w = .instr i) ∧
    ((∃ w, Asm.wordOf width i = .ok w) ↔
      (i.wf width = true ∧ ∀ f ∈ i.registerFields, 0 ≤ f ∧ f ≤ 4)) ∧
    ((¬ ∃ w, Asm.wordOf width i = .ok w) → Asm.wordOf width i = .error .doesNotFit)

/-- R86: each pseudo-instruction parses as its expansion. -/
def Obligations.PseudoInstructionsExpandToCoreWords : Prop :=
  ∀ (x y : List Char),
    Asm.parseItem .not [x, y] = Asm.parseItem (.op .neg) [x, y] ∧
    Asm.parseItem .jn [x, y] = Asm.parseItem (.op .js) [x, ['-'], y] ∧
    Asm.parseItem .jz [x, y] = Asm.parseItem (.op .js) [x, ['0'], y] ∧
    Asm.parseItem .jp [x, y] = Asm.parseItem (.op .js) [x, ['+'], y] ∧
    Asm.parseItem .nop [] = Asm.parseItem (.op .move) [['r', '0'], ['r', '0']] ∧
    Asm.parseItem .clr [x] = Asm.parseItem (.op .loadi) [x, ['#', '0']] ∧
    Asm.parseItem .load [x, '#' :: y] = Asm.parseItem (.op .loadi) [x, '#' :: y] ∧
    Asm.parseItem .load [x, '@' :: y] = Asm.parseItem (.op .loadm) [x, '@' :: y]

/-- R84, R85: each line of the syntax table with its operands in the order written there, a `.word` line, and an unknown
mnemonic. That a `.word` line of another length is refused is read from the word "exactly" of R84. Three points are the
model's choice (DESIGN CHOICE, log entry 9): mnemonics are spelled in capitals only, so that `halt` or `Add` is an
unknown mnemonic in the third clause; space, tab and carriage return are the blanks and a line feed ends a line; a
decimal after `@` may carry a sign. -/
def Obligations.SourceLinesAssembleToTheirInstruction : Prop :=
  (∀ (width d a b : Nat) (k : Int) (s : Trit), 9 ≤ width →
    ∀ p ∈ ([("HALT", .halt),
      ("LOADI r" ++ toString d ++ ", #" ++ toString k, .loadi d k),
      ("LOADM r" ++ toString d ++ ", @" ++ toString k, .loadm d k),
      ("STORE r" ++ toString a ++ ", @" ++ toString k, .store a k),
      ("MOVE r" ++ toString d ++ ", r" ++ toString a, .move d a),
      ("ADD r" ++ toString d ++ ", r" ++ toString a ++ ", r" ++ toString b, .add d a b),
      ("SUB r" ++ toString d ++ ", r" ++ toString a ++ ", r" ++ toString b, .sub d a b),
      ("MUL r" ++ toString d ++ ", r" ++ toString a ++ ", r" ++ toString b, .mul d a b),
      ("AND r" ++ toString d ++ ", r" ++ toString a ++ ", r" ++ toString b, .and d a b),
      ("OR r" ++ toString d ++ ", r" ++ toString a ++ ", r" ++ toString b, .or d a b),
      ("NEG r" ++ toString d ++ ", r" ++ toString a, .neg d a),
      ("SGN r" ++ toString d ++ ", r" ++ toString a, .sgn d a),
      ("JMP @" ++ toString k, .jmp k),
      ("JS r" ++ toString a ++ ", " ++ String.ofList [s.toChar] ++ ", @" ++ toString k, .js a s k)] :
        List (String × Instr)),
      (p.2.wf width = true → Asm.assembleText width p.1 = .ok [encode width p.2]) ∧
      (p.2.wf width = false → Asm.assembleText width p.1 = .error .doesNotFit)) ∧
  (∀ (width : Nat) (t : Trits), 9 ≤ width →
    (t.length = width → Asm.assembleText width (".word " ++ Trits.toText t) = .ok [⟨t⟩]) ∧
    (t.length ≠ width → ∃ e, Asm.assembleText width (".word " ++ Trits.toText t) = .error e)) ∧
  (∀ (width : Nat) (name rest : List Char), name ≠ [] →
    (∀ c ∈ name, c ∉ [' ', '\t', '\r', '\n', ';', ':']) → (∀ c ∈ rest, c ≠ ':' ∧ c ≠ '\n') →
    String.ofList name ∉ ["HALT", "LOADI", "LOADM", "STORE", "MOVE", "ADD", "SUB", "MUL", "NEG", "AND", "OR", "JMP",
      "JS", "SGN", "LOAD", "NOT", "JN", "JZ", "JP", "NOP", "CLR", ".word"] →
    Asm.assemble width (name ++ ' ' :: rest) = .error .unknownMnemonic)

/-- R84: `name:` and the value of a label, what a label operand stands for, and the order of the words. Names are spelled as
log entry 7 says. Four points are the model's choice (DESIGN CHOICE): a line feed ends a line and a label may stand alone on
a line (log entry 9); a text starts at address 0, so that a label's value is the number of words before it (log entry 9);
an assembled text has distinct labels (log entry 13); one refused line refuses the text, so that an assembled text has
every line parsed and every item given a word (log entry 14). The rest is R84. -/
def Obligations.LabelsNameTheNextWordsAddress : Prop :=
  (∀ (name rest : List Char) (item : Option Asm.Item), Asm.isName name = true → (∀ c ∈ rest, c ≠ ';') →
    Asm.parseBody rest = .ok item → Asm.parseLine (name ++ ':' :: rest) = .ok ⟨some name, item⟩) ∧
  (∀ (before after : List Asm.Line) (line : Asm.Line) (name : List Char), line.label = some name →
    Asm.distinctNames ((Asm.labelTable 0 (before ++ line :: after)).map Prod.fst) = true →
    Asm.resolve (Asm.labelTable 0 (before ++ line :: after)) (.label name)
      = .ok ((before.filterMap Asm.Line.item).length : Int)) ∧
  (∀ (width : Nat) (labels : List (List Char × Nat)) (name : List Char) (r v : Int) (s : Trit),
    Asm.resolve labels (.label name) = .ok v →
    Asm.itemWord width labels (.loadm r (.label name)) = Asm.wordOf width (.loadm r v) ∧
    Asm.itemWord width labels (.store r (.label name)) = Asm.wordOf width (.store r v) ∧
    Asm.itemWord width labels (.jmp (.label name)) = Asm.wordOf width (.jmp v) ∧
    Asm.itemWord width labels (.js r s (.label name)) = Asm.wordOf width (.js r s v)) ∧
  (∀ (width : Nat) (text : List Char) (ws : List Word), Asm.assemble width text = .ok ws →
    ∃ lines, Asm.parseLines (Asm.split '\n' text) = .ok lines ∧
      Asm.distinctNames ((Asm.labelTable 0 lines).map Prod.fst) = true ∧
      ws.length = (lines.filterMap Asm.Line.item).length ∧
      ∀ (j : Nat) (item : Asm.Item), (lines.filterMap Asm.Line.item)[j]? = some item →
        ∃ w, ws[j]? = some w ∧ Asm.itemWord width (Asm.labelTable 0 lines) item = .ok w)
end

