-- ==== Sys2Proof/Laws/Assembler.lean ====
section
/-! SUPPORT. What the parts of the assembler do with a text: decimals are read back, a line is cut into its mnemonic
and its operands, and the label table names the address of the next word. -/

namespace Sys2Proof.Asm

/-- A piece of text that no later cut or trim touches: not empty, no white space, no separator. -/
def Solid (s : List Char) : Prop :=
  s ≠ [] ∧ ∀ c ∈ s, isBlank c = false ∧ c ≠ ',' ∧ c ≠ ';' ∧ c ≠ ':' ∧ c ≠ '\n'

theorem Solid.append {s t : List Char} (hs : Solid s) (ht : Solid t) : Solid (s ++ t) := by
  refine ⟨by simp [hs.1], fun c hc => ?_⟩
  rcases List.mem_append.1 hc with h | h
  · exact hs.2 c h
  · exact ht.2 c h

theorem isDigit_digitChar {d : Nat} (h : d < 10) : d.digitChar.isDigit = true ∧ d.digitChar.toNat - 48 = d := by
  interval_cases d <;> decide

theorem solid_of_isDigit {c : Char} (h : c.isDigit = true) : Solid [c] := by
  refine ⟨by simp, fun e he => ?_⟩
  rw [List.mem_singleton.1 he]
  refine ⟨?_, ?_, ?_, ?_, ?_⟩
  · simp only [isBlank, Bool.or_eq_false_iff, decide_eq_false_iff_not]
    refine ⟨⟨?_, ?_⟩, ?_⟩ <;> (rintro rfl; revert h; decide)
  all_goals rintro rfl; revert h; decide

theorem digitsFrom_append (s t : List Char) : ∀ acc n, digitsFrom acc s = some n →
    digitsFrom acc (s ++ t) = digitsFrom n t := by
  induction s with
  | nil => intro acc n h; cases h; rfl
  | cons c rest ih =>
    intro acc n h
    simp only [digitsFrom] at h
    split at h
    · rename_i hc
      simp only [List.cons_append, digitsFrom, hc, if_true]
      exact ih _ _ h
    · cases h

/-- The decimal digits of a number are solid text that reads back as the number. -/
theorem digits_spec (n : Nat) : Solid (Nat.toDigits 10 n) ∧ digitsFrom 0 (Nat.toDigits 10 n) = some n ∧
    ∀ c ∈ Nat.toDigits 10 n, c.isDigit = true := by
  induction n using Nat.strong_induction_on with
  | _ n ih =>
    by_cases h : n < 10
    · obtain ⟨h1, h2⟩ := isDigit_digitChar h
      rw [Nat.toDigits_of_lt_base h]
      exact ⟨solid_of_isDigit h1, by simp [digitsFrom, h1, h2], by simpa using h1⟩
    · obtain ⟨h1, h2⟩ := isDigit_digitChar (Nat.mod_lt n (show 10 > 0 by decide))
      obtain ⟨i1, i2, i3⟩ := ih (n / 10) (by omega)
      rw [Nat.toDigits_of_base_le (by decide) (by omega)]
      refine ⟨i1.append (solid_of_isDigit h1), ?_, ?_⟩
      · rw [digitsFrom_append _ _ _ _ i2]
        simp only [digitsFrom, h1, h2, if_true]
        congr 1
        omega
      · intro c hc
        rcases List.mem_append.1 hc with hc | hc
        · exact i3 c hc
        · rw [List.mem_singleton.1 hc]; exact h1

theorem toList_toString_nat (n : Nat) : (toString n).toList = Nat.toDigits 10 n := by
  show (Nat.repr n).toList = _
  simp [Nat.repr]

/-- A number written in decimal reads back as itself. -/
theorem parseNat_toString (n : Nat) : parseNat (toString n).toList = some n := by
  rw [toList_toString_nat, parseNat, if_neg (digits_spec n).1.1]
  exact (digits_spec n).2.1

theorem solid_toString_nat (n : Nat) : Solid (toString n).toList := by
  rw [toList_toString_nat]
  exact (digits_spec n).1

theorem toList_toString_negSucc (n : Nat) :
    (toString (Int.negSucc n)).toList = '-' :: (toString (n + 1)).toList := by
  show ("-" ++ Nat.repr (n + 1)).toList = _
  simp

theorem parseInt_digits {s : List Char} (h : ∀ c ∈ s, c.isDigit = true) :
    parseInt s = (parseNat s).map fun n => (n : Int) := by
  unfold parseInt
  split
  · exact absurd (h _ List.mem_cons_self) (by decide)
  · exact absurd (h _ List.mem_cons_self) (by decide)
  · rfl

/-- A signed number written in decimal reads back as itself. -/
theorem parseInt_toString (k : Int) : parseInt (toString k).toList = some k := by
  cases k with
  | ofNat n =>
    show parseInt (toString n).toList = _
    rw [parseInt_digits (by rw [toList_toString_nat]; exact (digits_spec n).2.2), parseNat_toString]
    rfl
  | negSucc n =>
    rw [toList_toString_negSucc]
    have read : ∀ s, parseInt ('-' :: s) = (parseNat s).map fun m => -(m : Int) := fun _ => rfl
    rw [read, parseNat_toString]
    rfl

theorem solid_toString_int (k : Int) : Solid (toString k).toList := by
  cases k with
  | ofNat n => exact solid_toString_nat n
  | negSucc n =>
    rw [toList_toString_negSucc]
    exact Solid.append (s := ['-']) ⟨by simp, fun c hc => by rw [List.mem_singleton.1 hc]; decide⟩
      (solid_toString_nat (n + 1))

/-- A text that neither begins nor ends with white space is its own trim. -/
theorem trim_eq_self {s : List Char} (h : ∀ c ∈ s.head?, isBlank c = false) (h' : ∀ c ∈ s.getLast?, isBlank c = false) :
    trim s = s := by
  have front : ∀ t : List Char, (∀ c ∈ t.head?, isBlank c = false) → t.dropWhile isBlank = t := by
    intro t ht
    cases t with
    | nil => rfl
    | cons c rest => rw [List.dropWhile_cons_of_neg (by simp [ht c (by simp)])]
  rw [trim, front s h, front s.reverse (by simpa using h'), List.reverse_reverse]

theorem trim_blank (s : List Char) : trim (' ' :: s) = trim s := by
  rw [trim, List.dropWhile_cons_of_pos (by decide)]
  rfl

theorem Solid.trim {s : List Char} (h : Solid s) : trim s = s :=
  trim_eq_self (fun c hc => (h.2 c (List.mem_of_mem_head? hc)).1)
    (fun c hc => (h.2 c (List.mem_of_getLast? hc)).1)

theorem split_solid (sep : Char) {s : List Char} (h : ∀ c ∈ s, c ≠ sep) : split sep s = [s] := by
  induction s with
  | nil => rfl
  | cons c rest ih =>
    simp only [split, ih fun e he => h e (List.mem_cons_of_mem _ he)]
    rw [if_neg (h c List.mem_cons_self)]

theorem split_append (sep : Char) {s : List Char} (h : ∀ c ∈ s, c ≠ sep) (t : List Char) :
    split sep (s ++ sep :: t) = s :: split sep t := by
  have ne : ∀ u, split sep u ≠ [] := by
    intro u
    cases u with
    | nil => simp [split]
    | cons c rest =>
      simp only [split]
      split
      · simp
      · split <;> simp
  induction s with
  | nil =>
    simp only [List.nil_append, split]
    split
    · exact absurd ‹_› (ne t)
    · rename_i e
      simp [e]
  | cons c rest ih =>
    simp only [List.cons_append, split, ih fun e he => h e (List.mem_cons_of_mem _ he)]
    rw [if_neg (h c List.mem_cons_self)]

theorem operandsOf_nil : operandsOf [] = [] := rfl

/-- The operands of a line, cut at its commas, each with a blank before it. -/
theorem operandsOf_one {x : List Char} (hx : Solid x) : operandsOf (' ' :: x) = [x] := by
  have hc : ∀ c ∈ ' ' :: x, c ≠ ',' := by
    rintro c (_ | ⟨_, hc⟩)
    · decide
    · exact (hx.2 c hc).2.1
  rw [operandsOf, trim_blank, hx.trim, if_neg hx.1, split_solid ',' hc]
  simp [trim_blank, hx.trim]

theorem operandsOf_cons {x t : List Char} (hx : Solid x) (ht : operandsOf t ≠ []) :
    operandsOf (' ' :: x ++ ',' :: t) = x :: operandsOf t := by
  have hc : ∀ c ∈ ' ' :: x, c ≠ ',' := by
    rintro c (_ | ⟨_, hc⟩)
    · decide
    · exact (hx.2 c hc).2.1
  have h1 : trim t ≠ [] := fun e => ht (by rw [operandsOf, if_pos e])
  have h2 : trim (' ' :: x ++ ',' :: t) ≠ [] := by
    rw [List.cons_append, trim_blank, trim]
    obtain ⟨c, rest, rfl⟩ := List.exists_cons_of_ne_nil hx.1
    have hb := (hx.2 c List.mem_cons_self).1
    rw [List.cons_append, List.dropWhile_cons_of_neg (by simp [hb])]
    intro e
    have := List.reverse_eq_nil_iff.1 e
    rw [List.dropWhile_eq_nil_iff] at this
    have := this c (by simp)
    simp [hb] at this
  rw [operandsOf, if_neg h2, split_append ',' hc, List.map_cons, trim_blank, hx.trim, operandsOf, if_neg h1]

/-- The body of a line whose first word is `name`. -/
theorem parseBody_name {name rest : List Char} (hn : name ≠ []) (hb : ∀ c ∈ name, isBlank c = false)
    (hr : rest = [] ∨ ∃ t, rest = ' ' :: t) :
    parseBody (name ++ rest) =
      match mnemonicOf name with
      | none => .error .unknownMnemonic
      | some m =>
        match parseItem m (operandsOf ((trim (name ++ rest)).drop name.length)) with
        | none => .error .malformed
        | some item => .ok (some item) := by
  have name_first : ∀ t, (t = [] ∨ ∃ u, t = ' ' :: u) →
      ((name ++ t).takeWhile fun c => !isBlank c) = name := by
    intro t ht
    rw [List.takeWhile_append_of_pos fun c hc => by simp [hb c hc]]
    rcases ht with rfl | ⟨u, rfl⟩
    · simp
    · rw [List.takeWhile_cons_of_neg (by decide), List.append_nil]
  obtain ⟨t, ht, he⟩ : ∃ t, (t = [] ∨ ∃ u, t = ' ' :: u) ∧ trim (name ++ rest) = name ++ t := by
    have front : (name ++ rest).dropWhile isBlank = name ++ rest := by
      obtain ⟨c, cs, rfl⟩ := List.exists_cons_of_ne_nil hn
      rw [List.cons_append, List.dropWhile_cons_of_neg (by simp [hb c List.mem_cons_self])]
    have back : name.reverse.dropWhile isBlank = name.reverse := by
      rw [List.dropWhile_eq_self_iff]
      intro hl
      simpa using hb _ (List.mem_reverse.1 (List.getElem_mem hl))
    refine ⟨(rest.reverse.dropWhile isBlank).reverse, ?_, ?_⟩
    · rcases hr with rfl | ⟨u, rfl⟩
      · exact .inl rfl
      · rw [List.reverse_cons, List.dropWhile_append]
        cases h : (u.reverse.dropWhile isBlank) with
        | nil => exact .inl (by simp [isBlank])
        | cons d ds => exact .inr ⟨(d :: ds).reverse, by simp⟩
    · rw [trim, front, List.reverse_append, List.dropWhile_append, back]
      cases rest.reverse.dropWhile isBlank <;> simp
  simp only [parseBody, he, name_first t ht]
  rw [if_neg (by simp [hn])] <;> rfl

/-- A line without a label is its body, which ends where a comment begins. -/
theorem parseLine_unlabelled {text : List Char} (h : ∀ c ∈ text, c ≠ ':') :
    parseLine text = match parseBody (text.takeWhile fun c => decide (c ≠ ';')) with
      | .ok item => .ok ⟨none, item⟩
      | .error e => .error e := by
  have h1 : ((text.takeWhile fun c => decide (c ≠ ';')).takeWhile fun c => decide (c ≠ ':'))
      = text.takeWhile fun c => decide (c ≠ ';') :=
    List.takeWhile_eq_self_iff.2 fun c hc => by simp [h c ((List.takeWhile_sublist _).subset hc)]
  simp only [parseLine, h1, Nat.lt_irrefl, if_false] <;> rfl

/-- A text of one line without a label is the word of its item. -/
theorem assemble_line {width : Nat} {text : List Char} (h : ∀ c ∈ text, c ≠ '\n') {item : Item}
    (hp : parseLine text = .ok ⟨none, some item⟩) :
    assemble width text = match itemWord width [] item with
      | .ok w => .ok [w]
      | .error e => .error e := by
  simp only [assemble, split_solid '\n' h, parseLines, hp, labelTable, distinctNames, List.map_nil, if_true,
    List.filterMap_cons, List.filterMap_nil, itemWords]
  cases itemWord width [] item <;> rfl

theorem assemble_line_error {width : Nat} {text : List Char} (h : ∀ c ∈ text, c ≠ '\n') {e : AssemblyError}
    (hp : parseLine text = .error e) : assemble width text = .error e := by
  simp only [assemble, split_solid '\n' h, parseLines, hp]

theorem labelTable_append (before after : List Line) : ∀ a,
    labelTable a (before ++ after)
      = labelTable a before ++ labelTable (a + (before.filterMap Line.item).length) after := by
  induction before with
  | nil => intro a; rfl
  | cons line rest ih =>
    intro a
    have count : (if line.item.isSome then a + 1 else a) + (rest.filterMap Line.item).length
        = a + ((line :: rest).filterMap Line.item).length := by
      cases h : line.item <;> simp [h]
      omega
    simp only [List.cons_append, labelTable, ih, count]
    cases line.label <;> rfl

/-- Every item of an assembled text has its word, in order. -/
theorem itemWords_ok {width : Nat} {labels : List (List Char × Nat)} : ∀ {items : List Item} {ws : List Word},
    itemWords width labels items = .ok ws →
    ws.length = items.length ∧ ∀ (j : Nat) (item : Item), items[j]? = some item →
      ∃ w, ws[j]? = some w ∧ itemWord width labels item = .ok w := by
  intro items
  induction items with
  | nil => intro ws h; cases h; simp
  | cons item rest ih =>
    intro ws h
    simp only [itemWords] at h
    cases hw : itemWord width labels item with
    | error e => simp [hw] at h
    | ok w =>
      cases hr : itemWords width labels rest with
      | error e => simp [hw, hr] at h
      | ok us =>
        simp only [hw, hr, Except.ok.injEq] at h
        subst h
        obtain ⟨h1, h2⟩ := ih hr
        refine ⟨by simp [h1], fun j i hj => ?_⟩
        cases j with
        | zero =>
          simp only [List.getElem?_cons_zero, Option.some.injEq] at hj
          exact ⟨w, rfl, hj ▸ hw⟩
        | succ j => simpa using h2 j i (by simpa using hj)

end Sys2Proof.Asm
end

