-- ==== Sys2Proof/Laws/State.lean ====
section
/-! SUPPORT. One lemma per field per state update, and what the readers of the state see of an update. -/

namespace Sys2Proof.Machine

variable (s : State)

@[simp] theorem State.setReg_cfg (i : Nat) (v : Word) : (s.setReg i v).cfg = s.cfg := rfl
@[simp] theorem State.setReg_regs (i : Nat) (v : Word) : (s.setReg i v).regs = s.regs.set i v := rfl
@[simp] theorem State.setReg_pc (i : Nat) (v : Word) : (s.setReg i v).pc = s.pc := rfl
@[simp] theorem State.setReg_mem (i : Nat) (v : Word) : (s.setReg i v).mem = s.mem := rfl
@[simp] theorem State.setReg_runState (i : Nat) (v : Word) : (s.setReg i v).runState = s.runState := rfl
@[simp] theorem State.setReg_fault (i : Nat) (v : Word) : (s.setReg i v).fault = s.fault := rfl

@[simp] theorem State.setPc_cfg (v : Word) : (s.setPc v).cfg = s.cfg := rfl
@[simp] theorem State.setPc_regs (v : Word) : (s.setPc v).regs = s.regs := rfl
@[simp] theorem State.setPc_pc (v : Word) : (s.setPc v).pc = v := rfl
@[simp] theorem State.setPc_mem (v : Word) : (s.setPc v).mem = s.mem := rfl
@[simp] theorem State.setPc_runState (v : Word) : (s.setPc v).runState = s.runState := rfl
@[simp] theorem State.setPc_fault (v : Word) : (s.setPc v).fault = s.fault := rfl

@[simp] theorem State.memWrite_cfg (a : Nat) (v : Word) : (s.memWrite a v).cfg = s.cfg := rfl
@[simp] theorem State.memWrite_regs (a : Nat) (v : Word) : (s.memWrite a v).regs = s.regs := rfl
@[simp] theorem State.memWrite_pc (a : Nat) (v : Word) : (s.memWrite a v).pc = s.pc := rfl
@[simp] theorem State.memWrite_mem (a : Nat) (v : Word) : (s.memWrite a v).mem = Memory.write s.cfg.width s.mem a v := rfl
@[simp] theorem State.memWrite_runState (a : Nat) (v : Word) : (s.memWrite a v).runState = s.runState := rfl
@[simp] theorem State.memWrite_fault (a : Nat) (v : Word) : (s.memWrite a v).fault = s.fault := rfl

@[simp] theorem State.setRunState_cfg (r : RunState) : (s.setRunState r).cfg = s.cfg := rfl
@[simp] theorem State.setRunState_regs (r : RunState) : (s.setRunState r).regs = s.regs := rfl
@[simp] theorem State.setRunState_pc (r : RunState) : (s.setRunState r).pc = s.pc := rfl
@[simp] theorem State.setRunState_mem (r : RunState) : (s.setRunState r).mem = s.mem := rfl
@[simp] theorem State.setRunState_runState (r : RunState) : (s.setRunState r).runState = r := rfl
@[simp] theorem State.setRunState_fault (r : RunState) : (s.setRunState r).fault = s.fault := rfl

@[simp] theorem takeFault_cfg (r : FaultCause) : (takeFault s r).cfg = s.cfg := rfl
@[simp] theorem takeFault_regs (r : FaultCause) : (takeFault s r).regs = s.regs := rfl
@[simp] theorem takeFault_pc (r : FaultCause) : (takeFault s r).pc = s.pc := rfl
@[simp] theorem takeFault_mem (r : FaultCause) : (takeFault s r).mem = s.mem := rfl
@[simp] theorem takeFault_runState (r : FaultCause) : (takeFault s r).runState = .faulted := rfl
@[simp] theorem takeFault_fault (r : FaultCause) : (takeFault s r).fault = r.toCode := rfl

@[simp] theorem State.setReg_memRead (i : Nat) (v : Word) (b : Nat) : (s.setReg i v).memRead b = s.memRead b := rfl
@[simp] theorem State.setReg_following (i : Nat) (v : Word) : (s.setReg i v).following = s.following := rfl
@[simp] theorem State.setReg_registerValid (i : Nat) (v : Word) (f : Int) :
    registerValid (s.setReg i v) f = registerValid s f := rfl
@[simp] theorem State.setReg_addressValid (i : Nat) (v : Word) (a : Int) :
    addressValid (s.setReg i v) a = addressValid s a := rfl

@[simp] theorem State.setPc_memRead (v : Word) (b : Nat) : (s.setPc v).memRead b = s.memRead b := rfl
@[simp] theorem State.setPc_reg (v : Word) (f : Int) : (s.setPc v).reg f = s.reg f := rfl
@[simp] theorem State.setPc_registerValid (v : Word) (f : Int) :
    registerValid (s.setPc v) f = registerValid s f := rfl
@[simp] theorem State.setPc_addressValid (v : Word) (a : Int) :
    addressValid (s.setPc v) a = addressValid s a := rfl

@[simp] theorem State.memWrite_reg (a : Nat) (v : Word) (f : Int) : (s.memWrite a v).reg f = s.reg f := rfl
@[simp] theorem State.memWrite_following (a : Nat) (v : Word) : (s.memWrite a v).following = s.following := rfl
@[simp] theorem State.memWrite_registerValid (a : Nat) (v : Word) (f : Int) :
    registerValid (s.memWrite a v) f = registerValid s f := rfl
@[simp] theorem State.memWrite_addressValid (a : Nat) (v : Word) (b : Int) :
    addressValid (s.memWrite a v) b = addressValid s b := rfl

@[simp] theorem State.setRunState_memRead (r : RunState) (b : Nat) : (s.setRunState r).memRead b = s.memRead b := rfl
@[simp] theorem State.setRunState_reg (r : RunState) (f : Int) : (s.setRunState r).reg f = s.reg f := rfl
@[simp] theorem State.setRunState_following (r : RunState) : (s.setRunState r).following = s.following := rfl
@[simp] theorem State.setRunState_registerValid (r : RunState) (f : Int) :
    registerValid (s.setRunState r) f = registerValid s f := rfl
@[simp] theorem State.setRunState_addressValid (r : RunState) (a : Int) :
    addressValid (s.setRunState r) a = addressValid s a := rfl

@[simp] theorem takeFault_memRead (r : FaultCause) (b : Nat) : (takeFault s r).memRead b = s.memRead b := rfl
@[simp] theorem takeFault_reg (r : FaultCause) (f : Int) : (takeFault s r).reg f = s.reg f := rfl
@[simp] theorem takeFault_following (r : FaultCause) : (takeFault s r).following = s.following := rfl
@[simp] theorem takeFault_registerValid (r : FaultCause) (f : Int) :
    registerValid (takeFault s r) f = registerValid s f := rfl
@[simp] theorem takeFault_addressValid (r : FaultCause) (a : Int) :
    addressValid (takeFault s r) a = addressValid s a := rfl

/-- The fetch of a machine depends on its parameters, PC and memory alone. -/
@[simp] theorem State.setRunState_fetchDecode (r : RunState) :
    fetchDecode (s.setRunState r) = fetchDecode s := rfl

@[simp] theorem State.setRunState_firstFault (r : RunState) :
    firstFault (s.setRunState r) = firstFault s := rfl

theorem registerValid_iff (f : Int) : registerValid s f = true ↔ 0 ≤ f ∧ f < (s.cfg.nreg : Int) := by
  simp [registerValid]

theorem addressValid_iff (a : Int) : addressValid s a = true ↔ AddressInRange s a := by
  simp [addressValid, AddressInRange]

/-- The cycle's register check is the check that every listed field names a register (R24). -/
theorem all_registerValid_iff (fields : List Int) :
    fields.all (registerValid s) = true ↔ FieldsValid s fields := by
  simp [FieldsValid, registerValid_iff]

end Sys2Proof.Machine
end

