-- ==== Sys2Proof/Laws/Memory.lean ====
section
/-! SUPPORT. Reading after writing, and that every memory operation keeps the canonical form. -/

namespace Sys2Proof.Machine

theorem Memory.read_insert_same (width : Nat) (m : Memory) (a : Nat) (v : Word) :
    Memory.read width (Memory.insert m a v) a = v := by
  induction m with
  | nil => simp [Memory.insert, Memory.read]
  | cons p rest ih =>
    obtain ⟨b, u⟩ := p
    simp only [Memory.insert]
    split
    · simp [Memory.read]
    · split
      · simp [Memory.read]
      · simp [Memory.read, *]

theorem Memory.read_insert_other (width : Nat) (m : Memory) {a b : Nat} (v : Word) (h : b ≠ a) :
    Memory.read width (Memory.insert m a v) b = Memory.read width m b := by
  induction m with
  | nil => simp [Memory.insert, Memory.read, h]
  | cons p rest ih =>
    obtain ⟨c, u⟩ := p
    simp only [Memory.insert]
    split
    · simp [Memory.read, h]
    · split
      · rename_i hac
        subst hac
        simp [Memory.read, h]
      · simp [Memory.read, ih]

theorem Memory.read_erase_other (width : Nat) (m : Memory) {a b : Nat} (h : b ≠ a) :
    Memory.read width (Memory.erase m a) b = Memory.read width m b := by
  induction m with
  | nil => rfl
  | cons p rest ih =>
    obtain ⟨c, u⟩ := p
    simp only [Memory.erase]
    split
    · rename_i hac
      subst hac
      simp [Memory.read, h]
    · simp [Memory.read, ih]

/-- An address that no pair lists reads as `0^W`. -/
theorem Memory.read_unlisted (width : Nat) (m : Memory) (a : Nat) (h : ∀ p ∈ m, p.1 ≠ a) :
    Memory.read width m a = Word.zero width := by
  induction m with
  | nil => rfl
  | cons p rest ih =>
    have hp : a ≠ p.1 := fun e => h p (by simp) e.symm
    simp [Memory.read, hp, ih fun q hq => h q (by simp [hq])]

theorem Memory.mem_erase {m : Memory} {a : Nat} {q : Nat × Word} (h : q ∈ Memory.erase m a) : q ∈ m := by
  induction m with
  | nil => exact h
  | cons p rest ih =>
    simp only [Memory.erase] at h
    split at h
    · simp [h]
    · rcases List.mem_cons.1 h with rfl | h
      · simp
      · simp [ih h]

theorem Memory.mem_insert {m : Memory} {a : Nat} {v : Word} {q : Nat × Word}
    (h : q ∈ Memory.insert m a v) : q = (a, v) ∨ q ∈ m := by
  induction m with
  | nil => simpa [Memory.insert] using h
  | cons p rest ih =>
    simp only [Memory.insert] at h
    split at h
    · simpa using h
    · split at h
      · rcases List.mem_cons.1 h with rfl | h
        · simp
        · simp [h]
      · rcases List.mem_cons.1 h with rfl | h
        · simp
        · rcases ih h with h | h <;> simp [h]

theorem Memory.erase_rising {m : Memory} (a : Nat) (h : m.Pairwise fun p q => p.1 < q.1) :
    (Memory.erase m a).Pairwise fun p q => p.1 < q.1 := by
  induction m with
  | nil => exact h
  | cons p rest ih =>
    obtain ⟨hp, hr⟩ := List.pairwise_cons.1 h
    simp only [Memory.erase]
    split
    · exact hr
    · exact List.pairwise_cons.2 ⟨fun q hq => hp q (Memory.mem_erase hq), ih hr⟩

theorem Memory.insert_rising {m : Memory} (a : Nat) (v : Word) (h : m.Pairwise fun p q => p.1 < q.1) :
    (Memory.insert m a v).Pairwise fun p q => p.1 < q.1 := by
  induction m with
  | nil => simp [Memory.insert]
  | cons p rest ih =>
    obtain ⟨b, u⟩ := p
    obtain ⟨hp, hr⟩ := List.pairwise_cons.1 h
    simp only [Memory.insert]
    split
    · rename_i hab
      refine List.pairwise_cons.2 ⟨fun q hq => ?_, h⟩
      rcases List.mem_cons.1 hq with rfl | hq
      · exact hab
      · exact Nat.lt_trans hab (hp q hq)
    · split
      · rename_i hab
        subst hab
        exact List.pairwise_cons.2 ⟨hp, hr⟩
      · refine List.pairwise_cons.2 ⟨fun q hq => ?_, ih hr⟩
        rcases Memory.mem_insert hq with rfl | hq
        · show b < a
          omega
        · exact hp q hq

/-- After an erase in a rising memory the address reads as `0^W`. -/
theorem Memory.read_erase_same (width : Nat) {m : Memory} (a : Nat)
    (h : m.Pairwise fun p q => p.1 < q.1) :
    Memory.read width (Memory.erase m a) a = Word.zero width := by
  induction m with
  | nil => rfl
  | cons p rest ih =>
    obtain ⟨b, u⟩ := p
    obtain ⟨hp, hr⟩ := List.pairwise_cons.1 h
    simp only [Memory.erase]
    split
    · rename_i hab
      subst hab
      exact Memory.read_unlisted width rest _ fun q hq e => absurd (hp q hq) (by simp [e])
    · simp [Memory.read, *]

/-- A read after a write to the same address gives the word written (R54). -/
theorem Memory.read_write_same (width : Nat) {m : Memory} (a : Nat) (v : Word)
    (h : m.Pairwise fun p q => p.1 < q.1) :
    Memory.read width (Memory.write width m a v) a = v := by
  simp only [Memory.write]
  split
  · rename_i hv
    rw [Memory.read_erase_same width a h, hv]
  · exact Memory.read_insert_same width m a v

/-- A write leaves every other address alone. -/
theorem Memory.read_write_other (width : Nat) (m : Memory) {a b : Nat} (v : Word) (h : b ≠ a) :
    Memory.read width (Memory.write width m a v) b = Memory.read width m b := by
  simp only [Memory.write]
  split
  · exact Memory.read_erase_other width m h
  · exact Memory.read_insert_other width m v h

/-- A write of a `W`-trit word below `M` keeps the canonical form. -/
theorem Memory.write_wf {width memWords : Nat} {m : Memory} {a : Nat} {v : Word}
    (h : Memory.wf width memWords m) (ha : a < memWords) (hv : v.trits.length = width) :
    Memory.wf width memWords (Memory.write width m a v) := by
  simp only [Memory.write]
  split
  · exact ⟨Memory.erase_rising a h.1, fun p hp => h.2 p (Memory.mem_erase hp)⟩
  · rename_i hz
    refine ⟨Memory.insert_rising a v h.1, fun p hp => ?_⟩
    rcases Memory.mem_insert hp with rfl | hp
    · exact ⟨ha, hv, hz⟩
    · exact h.2 p hp

/-- A word read from a canonical memory has `W` trits. -/
theorem Memory.read_length {width memWords : Nat} {m : Memory} (h : Memory.wf width memWords m) (a : Nat) :
    (Memory.read width m a).trits.length = width := by
  have key : ∀ l : Memory, (∀ p ∈ l, p.2.trits.length = width) →
      (Memory.read width l a).trits.length = width := by
    intro l
    induction l with
    | nil => intro _; simp [Memory.read, Word.zero, Trits.zeros]
    | cons p rest ih =>
      intro hl
      simp only [Memory.read]
      split
      · exact hl p (by simp)
      · exact ih fun q hq => hl q (by simp [hq])
  exact key m fun p hp => (h.2 p hp).2.1

/-- The memory of an image of `W`-trit words that ends below `M` is canonical, and lists no address before
the image's first. -/
theorem Memory.ofImage_wf {width memWords : Nat} (image : List Trits) :
    ∀ a, a + image.length ≤ memWords → (∀ t ∈ image, t.length = width) →
      Memory.wf width memWords (Memory.ofImage width a image) ∧
        ∀ p ∈ Memory.ofImage width a image, a ≤ p.1 := by
  induction image with
  | nil => intro a _ _; simp [Memory.ofImage, Memory.wf]
  | cons t rest ih =>
    intro a ha ht
    have hlen : a + (rest.length + 1) ≤ memWords := by simpa using ha
    obtain ⟨⟨hs, hw⟩, hb⟩ := ih (a + 1) (by omega) fun u hu => ht u (by simp [hu])
    simp only [Memory.ofImage]
    split
    · exact ⟨⟨hs, hw⟩, fun p hp => by have := hb p hp; omega⟩
    · rename_i hz
      refine ⟨⟨List.pairwise_cons.2 ⟨fun q hq => ?_, hs⟩, fun p hp => ?_⟩, fun p hp => ?_⟩
      · have := hb q hq
        show a < q.1
        omega
      · rcases List.mem_cons.1 hp with rfl | hp
        · refine ⟨by show a < memWords; omega, ht t (by simp), fun e => hz ?_⟩
          exact congrArg Word.trits e
        · exact hw p hp
      · rcases List.mem_cons.1 hp with rfl | hp
        · exact Nat.le_refl _
        · have := hb p hp; omega

/-- Reading the memory of an image gives the image (R36). -/
theorem Memory.read_ofImage {width : Nat} (image : List Trits) :
    ∀ a i, (h : i < image.length) →
      Memory.read width (Memory.ofImage width a image) (a + i) = ⟨image[i]⟩ := by
  induction image with
  | nil => intro a i h; exact absurd h (by simp)
  | cons t rest ih =>
    have before : ∀ (l : List Trits) (c d : Nat), d < c → ∀ p ∈ Memory.ofImage width c l, p.1 ≠ d := by
      intro l
      induction l with
      | nil => intro c d _ p hp; simp [Memory.ofImage] at hp
      | cons u us ihl =>
        intro c d hd p hp
        simp only [Memory.ofImage] at hp
        split at hp
        · exact ihl (c + 1) d (by omega) p hp
        · rcases List.mem_cons.1 hp with rfl | hp
          · show c ≠ d
            omega
          · exact ihl (c + 1) d (by omega) p hp
    intro a i h
    cases i with
    | zero =>
      simp only [Memory.ofImage]
      split
      · rename_i hz
        rw [Memory.read_unlisted width _ _ fun p hp => before rest (a + 1) (a + 0) (by omega) p hp]
        simp [Word.zero, hz]
      · simp [Memory.read]
    | succ j =>
      have hj : j < rest.length := by simpa using h
      have := ih (a + 1) j hj
      rw [show a + 1 + j = a + (j + 1) by omega] at this
      simp only [Memory.ofImage]
      split
      · simpa using this
      · simp only [Memory.read]
        rw [if_neg (by omega)]
        simpa using this

end Sys2Proof.Machine
end

