-- ==== Sys2Proof/Laws/Cycle.lean ====
section
/-! SUPPORT. What the shared operations of a cycle can do, said once for each: the advance, the address operand,
the commit, the end of the cycle, the register check, and a step. -/

namespace Sys2Proof.Machine

theorem advance_ok {s : State} (h : PcAdvances s) : advance s = .ok s.following := by
  unfold advance State.following
  rw [if_neg (by unfold PcAdvances at h; omega)]

theorem advance_overflow {s : State} (h : ¬ PcAdvances s) : advance s = .error .overflow := by
  unfold advance
  rw [if_pos (by unfold PcAdvances at h; omega)]

theorem effectiveAddress_ok {s : State} {k : Int} (h : AddressInRange s k) :
    effectiveAddress s k = .ok k.toNat := by
  simp [effectiveAddress, (addressValid_iff s k).2 h]

theorem effectiveAddress_fault {s : State} {k : Int} (h : ¬ AddressInRange s k) :
    effectiveAddress s k = .error .address := by
  have : ¬ addressValid s k = true := fun e => h ((addressValid_iff s k).1 e)
  simp [effectiveAddress, this]

theorem regWord_ok {width : Nat} {v : Int} (h : v.natAbs ≤ maxPos width) :
    regWord width v = .ok (Word.ofInt width v) := by
  simp [regWord, fits, h]

theorem regWord_overflow {width : Nat} {v : Int} (h : ¬ v.natAbs ≤ maxPos width) :
    regWord width v = .error .overflowError := by
  simp [regWord, fits, h]

theorem checkedWord_ok {width : Nat} {v : Int} (h : v.natAbs ≤ maxPos width) :
    checkedWord width v = .ok (Word.ofInt width v) := by
  simp [checkedWord, regWord_ok h]

theorem checkedWord_overflow {width : Nat} {v : Int} (h : ¬ v.natAbs ≤ maxPos width) :
    checkedWord width v = .error .overflow := by
  simp [checkedWord, regWord_overflow h]

@[simp] theorem commit_toReg (s : State) (d : Int) (v p : Word) :
    commit s (Writes.toReg d v) p = (s.setReg d.toNat v).setPc p := rfl

@[simp] theorem commit_toMem (s : State) (a : Nat) (v p : Word) :
    commit s (Writes.toMem a v) p = (s.memWrite a v).setPc p := rfl

@[simp] theorem commit_toPc (s : State) (v p : Word) : commit s (Writes.toPc v) p = s.setPc p := rfl

@[simp] theorem commit_nothing (s : State) (p : Word) : commit s Writes.nothing p = s.setPc p := rfl

@[simp] theorem nextPc_toReg (s : State) (d : Int) (v : Word) : nextPc s (Writes.toReg d v) = advance s := rfl

@[simp] theorem nextPc_toMem (s : State) (a : Nat) (v : Word) : nextPc s (Writes.toMem a v) = advance s := rfl

@[simp] theorem nextPc_toPc (s : State) (v : Word) : nextPc s (Writes.toPc v) = .ok v := rfl

@[simp] theorem nextPc_nothing (s : State) : nextPc s Writes.nothing = advance s := rfl

@[simp] theorem finish_error (s : State) (r : FaultCause) : finish s (.error r) = .next (takeFault s r) := rfl

theorem finish_ok {s : State} {w : Writes} {p : Word} (h : nextPc s w = .ok p) :
    finish s (.ok w) = .next (commit s w p) := by
  simp [finish, h]

theorem finish_pcFault {s : State} {w : Writes} {r : FaultCause} (h : nextPc s w = .error r) :
    finish s (.ok w) = .next (takeFault s r) := by
  simp [finish, h]

/-- Everything the end of a cycle can do: take the instruction's fault, take the fault of the PC, or commit. -/
theorem finish_cases (s : State) (q : Request) :
    (∃ r, q = .error r ∧ finish s q = .next (takeFault s r)) ∨
    (∃ w r, q = .ok w ∧ nextPc s w = .error r ∧ finish s q = .next (takeFault s r)) ∨
    (∃ w p, q = .ok w ∧ nextPc s w = .ok p ∧ finish s q = .next (commit s w p)) := by
  cases q with
  | error r => exact .inl ⟨r, rfl, rfl⟩
  | ok w =>
    cases h : nextPc s w with
    | error r => exact .inr (.inl ⟨w, r, rfl, h, finish_pcFault h⟩)
    | ok p => exact .inr (.inr ⟨w, p, rfl, h, finish_ok h⟩)

theorem withRegisters_valid {s : State} {fields : List Int} (h : FieldsValid s fields) (q : Request) :
    withRegisters s fields q = finish s q := by
  rw [withRegisters, if_pos ((all_registerValid_iff s fields).2 h)]

theorem withRegisters_fault {s : State} {fields : List Int} (h : ¬ FieldsValid s fields) (q : Request) :
    withRegisters s fields q = .next (takeFault s .address) := by
  rw [withRegisters, if_neg fun e => h ((all_registerValid_iff s fields).1 e)]

/-- Everything the register check and the rest of the cycle can do. -/
theorem withRegisters_cases (s : State) (fields : List Int) (q : Request) :
    (¬ FieldsValid s fields ∧ withRegisters s fields q = .next (takeFault s .address)) ∨
    (FieldsValid s fields ∧ withRegisters s fields q = finish s q) := by
  by_cases h : FieldsValid s fields
  · exact .inr ⟨h, withRegisters_valid h q⟩
  · exact .inl ⟨h, withRegisters_fault h q⟩

/-- The register check and the rest of the cycle always answer a next state. -/
theorem withRegisters_next (s : State) (fields : List Int) (q : Request) :
    ∃ t, withRegisters s fields q = .next t := by
  rcases withRegisters_cases s fields q with ⟨_, h⟩ | ⟨_, h⟩
  · exact ⟨_, h⟩
  · rcases finish_cases s q with ⟨_, _, e⟩ | ⟨_, _, _, _, e⟩ | ⟨_, _, _, _, e⟩ <;> exact ⟨_, h.trans e⟩

/-- Everything fetch and decode can do. -/
theorem fetchDecode_cases (s : State) :
    (¬ AddressInRange s s.pc.int ∧ fetchDecode s = .error .address) ∨
    (AddressInRange s s.pc.int ∧ ∃ why,
      decode s.cfg.width (s.memRead s.pc.int.toNat) = .invalid why ∧ fetchDecode s = .error .invalidOpcode) ∨
    (AddressInRange s s.pc.int ∧ ∃ i,
      decode s.cfg.width (s.memRead s.pc.int.toNat) = .instr i ∧ fetchDecode s = .ok i) := by
  by_cases h : AddressInRange s s.pc.int
  · cases hd : decode s.cfg.width (s.memRead s.pc.int.toNat) with
    | instr i =>
      exact .inr (.inr ⟨h, i, rfl, by rw [fetchDecode, if_pos ((addressValid_iff s _).2 h), hd]⟩)
    | invalid why =>
      exact .inr (.inl ⟨h, why, rfl, by rw [fetchDecode, if_pos ((addressValid_iff s _).2 h), hd]⟩)
  · exact .inl ⟨h, by rw [fetchDecode, if_neg fun e => h ((addressValid_iff s _).1 e)]⟩

/-- Everything a step can do: fail in `Faulted`, stay in `Halted`, take a fault of fetch or decode, or run the
instruction it fetched; in the last two cases from the machine with `RUNSTATE = Running`. -/
theorem step_cases (s : State) :
    (s.runState = .faulted ∧ step s = .fault .stepAfterFault) ∨
    (s.runState = .halted ∧ step s = .next s) ∨
    (s.live = true ∧ ∃ r, fetchDecode s = .error r ∧ step s = .next (takeFault (s.setRunState .running) r)) ∨
    (s.live = true ∧ ∃ i, fetchDecode s = .ok i ∧ step s = exec i (s.setRunState .running)) := by
  have same : s.runState = .running → s.setRunState .running = s := fun h => by
    cases s; cases h; rfl
  have body : s.live = true → step s = cycle (s.setRunState .running) →
      (s.live = true ∧ ∃ r, fetchDecode s = .error r ∧ step s = .next (takeFault (s.setRunState .running) r)) ∨
      (s.live = true ∧ ∃ i, fetchDecode s = .ok i ∧ step s = exec i (s.setRunState .running)) := by
    intro hl he
    cases hf : fetchDecode s with
    | error r => exact .inl ⟨hl, r, rfl, by rw [he, cycle, State.setRunState_fetchDecode, hf]⟩
    | ok i => exact .inr ⟨hl, i, rfl, by rw [he, cycle, State.setRunState_fetchDecode, hf]⟩
  cases h : s.runState with
  | ready => exact .inr (.inr (body (by simp [State.live, h]) (by simp [step, h])))
  | running => exact .inr (.inr (body (by simp [State.live, h]) (by rw [same h]; simp [step, h])))
  | halted => exact .inr (.inl ⟨rfl, by simp [step, h]⟩)
  | faulted => exact .inl ⟨rfl, by simp [step, h]⟩

end Sys2Proof.Machine
end

