-- ==== Sys2Proof/Laws/Trits.lean ====
section
/-! SUPPORT. The small lemmas of the trit and sequence functions: values, lengths and single positions. -/

namespace Sys2Proof

theorem Trit.toInt_bounds (t : Trit) : -1 ≤ t.toInt ∧ t.toInt ≤ 1 := by cases t <;> decide

theorem Trit.toInt_injective {a b : Trit} (h : a.toInt = b.toInt) : a = b := by
  revert h
  cases a <;> cases b <;> decide

@[simp] theorem Trit.toInt_eq_zero (t : Trit) : t.toInt = 0 ↔ t = .zero := by cases t <;> decide

@[simp] theorem Trit.negate_toInt (t : Trit) : t.negate.toInt = -t.toInt := by cases t <;> rfl

@[simp] theorem Trit.negate_negate (t : Trit) : t.negate.negate = t := by cases t <;> rfl

/-- The trit of a value that one trit can hold has that value. -/
theorem Trit.toInt_ofSign {v : Int} (h : -1 ≤ v ∧ v ≤ 1) : (Trit.ofSign v).toInt = v := by
  obtain h | h | h : v = -1 ∨ v = 0 ∨ v = 1 := by omega
  all_goals subst h; decide

@[simp] theorem Trit.ofSign_toInt (t : Trit) : Trit.ofSign t.toInt = t := by cases t <;> rfl

/-- What the full adder does to the value: it keeps it, split into carry and sum (R102). -/
theorem Trit.addWithCarry_value (a b cin : Trit) :
    3 * (Trit.addWithCarry a b cin).2.toInt + (Trit.addWithCarry a b cin).1.toInt
      = a.toInt + b.toInt + cin.toInt := by
  cases a <;> cases b <;> cases cin <;> decide

/-- The digit of `v` at the least significant position is a trit value congruent to `v` modulo 3. -/
theorem lowDigit_spec (v : Int) : -1 ≤ lowDigit v ∧ lowDigit v ≤ 1 ∧ 3 * ((v - lowDigit v) / 3) = v - lowDigit v := by
  unfold lowDigit
  split <;> omega

@[simp] theorem Trits.length_zeros (k : Nat) : (Trits.zeros k).length = k := by simp [Trits.zeros]

@[simp] theorem Trits.length_negate (t : Trits) : (Trits.negate t).length = t.length := by
  simp [Trits.negate]

@[simp] theorem Trits.length_concat (a b : Trits) : (Trits.concat a b).length = a.length + b.length := by
  show (b ++ a).length = _
  simp [Nat.add_comm]

theorem Trits.length_sext (n : Nat) (t : Trits) : (Trits.sext n t).length = max n t.length := by
  simp [Trits.sext]
  omega

theorem Trits.length_uext (n : Nat) (t : Trits) : (Trits.uext n t).length = max n t.length := by
  simp [Trits.uext]
  omega

@[simp] theorem Trits.length_ripple (l : List (Trit × Trit)) (c : Trit) :
    (Trits.ripple l c).1.length = l.length := by
  induction l generalizing c with
  | nil => rfl
  | cons p rest ih => simp [Trits.ripple, ih]

@[simp] theorem Trits.int_nil : Trits.int [] = 0 := rfl

@[simp] theorem Trits.int_cons (t : Trit) (rest : Trits) :
    Trits.int (t :: rest) = t.toInt + 3 * Trits.int rest := rfl

/-- The value of a sequence from the values of its two parts, `b` being the more significant one. -/
theorem Trits.int_append (a b : Trits) : Trits.int (a ++ b) = Trits.int a + 3 ^ a.length * Trits.int b := by
  induction a with
  | nil => simp
  | cons t rest ih =>
    simp only [List.cons_append, Trits.int_cons, ih, List.length_cons, pow_succ]
    ring

@[simp] theorem Trits.int_replicate_zero (k : Nat) : Trits.int (List.replicate k .zero) = 0 := by
  induction k with
  | zero => rfl
  | succ k ih => simp [List.replicate_succ, ih, Trit.toInt]

@[simp] theorem Trits.int_zeros (k : Nat) : Trits.int (Trits.zeros k) = 0 := Trits.int_replicate_zero k

theorem Trits.isZero_iff (t : Trits) : Trits.isZero t = true ↔ t = Trits.zeros t.length := by
  simp [Trits.isZero, Trits.zeros, List.eq_replicate_iff]

/-- `MAXPOS(n+1) = 3 * MAXPOS(n) + 1`. -/
theorem maxPos_succ (n : Nat) : maxPos (n + 1) = 3 * maxPos n + 1 := by
  have h : ∀ k, 3 ^ k % 2 = 1 := fun k => by simp [Nat.pow_mod]
  have h1 := h n
  have h2 : 3 ^ (n + 1) = 3 * 3 ^ n := by rw [pow_succ, Nat.mul_comm]
  have h3 : 0 < 3 ^ n := Nat.pow_pos (by decide)
  unfold maxPos
  omega

@[simp] theorem maxPos_zero : maxPos 0 = 0 := rfl

/-- `3^n = 2 * MAXPOS(n) + 1` (R152). -/
theorem three_pow_eq (n : Nat) : 3 ^ n = 2 * maxPos n + 1 := by
  induction n with
  | zero => rfl
  | succ n ih => rw [pow_succ, ih, maxPos_succ]; ring

@[simp] theorem Word.length_zero (n : Nat) : (Word.zero n).trits.length = n := Trits.length_zeros n

@[simp] theorem length_negw (a : Word) : (negw a).trits.length = a.trits.length := Trits.length_negate _

theorem length_addw (a b : Word) (c : Trit) :
    (addw a b c).sum.trits.length = min a.trits.length b.trits.length := by
  simp [addw]

theorem length_andw (a b : Word) : (andw a b).trits.length = min a.trits.length b.trits.length := by
  simp [andw]

theorem length_orw (a b : Word) : (orw a b).trits.length = min a.trits.length b.trits.length := by
  simp [orw]

theorem Word.length_sext (n : Nat) (t : Trits) (h : t.length ≤ n) : (Word.sext n t).trits.length = n := by
  show (Trits.sext n t).length = n
  rw [Trits.length_sext]
  omega

end Sys2Proof
end

