-- ==== Sys2Proof/Laws/PerInstr.lean ====
section
/-! SUPPORT. Per-instruction facts about the instruction as syntax. Family RegisterFields: the register fields an
instruction checks are exactly its register operands, in the order of its operands (R71, R186). -/

namespace Sys2Proof.Laws

/-- The indices of the register operands, in order. -/
def registerOperands (i : Instr) : List Int :=
  i.operands.filterMap fun o =>
    match o with
    | .register f => some f
    | .immediate _ => none
    | .address _ => none

/-- The register fields of the cycle's check are the register operands, each fits a two-trit field when the
instruction is well formed, and there are at most three. -/
def RegisterFields.Statement (i : Instr) : Prop :=
  i.registerFields = registerOperands i ∧ i.registerFields.length ≤ 3 ∧
    ∀ width, i.wf width = true → i.registerFields.all registerFieldFits = true

theorem RegisterFields.halt : RegisterFields.Statement .halt := by
  simp [RegisterFields.Statement, registerOperands, Instr.operands, Instr.registerFields]

theorem RegisterFields.loadi (a k : Int) : RegisterFields.Statement (.loadi a k) := by
  simp_all [RegisterFields.Statement, registerOperands, Instr.operands, Instr.registerFields, Instr.wf]

theorem RegisterFields.loadm (a k : Int) : RegisterFields.Statement (.loadm a k) := by
  simp_all [RegisterFields.Statement, registerOperands, Instr.operands, Instr.registerFields, Instr.wf]

theorem RegisterFields.store (a k : Int) : RegisterFields.Statement (.store a k) := by
  simp_all [RegisterFields.Statement, registerOperands, Instr.operands, Instr.registerFields, Instr.wf]

theorem RegisterFields.move (a b : Int) : RegisterFields.Statement (.move a b) := by
  simp_all [RegisterFields.Statement, registerOperands, Instr.operands, Instr.registerFields, Instr.wf]

theorem RegisterFields.add (a b c : Int) : RegisterFields.Statement (.add a b c) := by
  simp_all [RegisterFields.Statement, registerOperands, Instr.operands, Instr.registerFields, Instr.wf]

theorem RegisterFields.sub (a b c : Int) : RegisterFields.Statement (.sub a b c) := by
  simp_all [RegisterFields.Statement, registerOperands, Instr.operands, Instr.registerFields, Instr.wf]

theorem RegisterFields.mul (a b c : Int) : RegisterFields.Statement (.mul a b c) := by
  simp_all [RegisterFields.Statement, registerOperands, Instr.operands, Instr.registerFields, Instr.wf]

theorem RegisterFields.neg (a b : Int) : RegisterFields.Statement (.neg a b) := by
  simp_all [RegisterFields.Statement, registerOperands, Instr.operands, Instr.registerFields, Instr.wf]

theorem RegisterFields.and (a b c : Int) : RegisterFields.Statement (.and a b c) := by
  simp_all [RegisterFields.Statement, registerOperands, Instr.operands, Instr.registerFields, Instr.wf]

theorem RegisterFields.or (a b c : Int) : RegisterFields.Statement (.or a b c) := by
  simp_all [RegisterFields.Statement, registerOperands, Instr.operands, Instr.registerFields, Instr.wf]

theorem RegisterFields.jmp (k : Int) : RegisterFields.Statement (.jmp k) := by
  simp [RegisterFields.Statement, registerOperands, Instr.operands, Instr.registerFields]

theorem RegisterFields.js (a : Int) (s : Trit) (kb : Int) : RegisterFields.Statement (.js a s kb) := by
  simp_all [RegisterFields.Statement, registerOperands, Instr.operands, Instr.registerFields, Instr.wf]

theorem RegisterFields.sgn (a b : Int) : RegisterFields.Statement (.sgn a b) := by
  simp_all [RegisterFields.Statement, registerOperands, Instr.operands, Instr.registerFields, Instr.wf]

end Sys2Proof.Laws
end

