-- ==== Sys2Proof/Tests/Slice0.lean ====
section
/-! SUPPORT. The model's own tests. Expected results are those of 95_test_vectors.md and of the rules named, written
by hand; a `test_witness` theorem shows that the hypotheses of the obligation it names can be met, clause by clause,
at boundary values. -/

namespace Sys2Proof.Tests

open Sys2Proof Sys2Proof.Machine

/-- A word from its text, most significant trit first (R133). -/
def w (s : String) : Word :=
  match Trits.ofText s with
  | .ok t => ⟨t⟩
  | .error _ => ⟨[]⟩

/-- The machine of the vectors V6: `Running` at PC 3, the word at address 3, `mem[20] = 100`, registers as given. -/
def machine (word : String) (regs : List Int) : State where
  cfg := ⟨9, 5, 27⟩
  regs := regs.map (Word.ofInt 9)
  pc := w "0000000+0"
  mem := Memory.write 9 [(20, w "0000++-0+")] 3 (w word)
  runState := .running
  fault := .none

/-- The next state of a step, if there is one. -/
def nextOf (o : Result) : Option State :=
  match o with
  | .next t => some t
  | .fault _ => none
  | .refused _ => none

/-- One step, and what it leaves in register `r` and in the PC. -/
def stepReg (s : State) (r : Int) : Option (Word × Word) := (nextOf (step s)).map fun t => (t.reg r, t.pc)

/-- One step, and what it leaves in `RUNSTATE`, `FAULT` and the PC. -/
def stepStop (s : State) : Option (RunState × FaultCode × Word) :=
  (nextOf (step s)).map fun t => (t.runState, t.fault, t.pc)

/-- The machine used by the witnesses: `x = 100, -40, 7, 0, -5`. -/
def base : State := machine "+--+-000+" [100, -40, 7, 0, -5]

/-- The same at the largest PC that can advance, 9840. -/
def edge : State := base.setPc (w "++++++++0")

/-- The same at the PC that cannot advance, 9841. -/
def top : State := base.setPc (w "+++++++++")

/-- `x[0] = 9841` and `x[1] = 1`: their sum does not fit, and 9841 itself does. -/
def big : State := machine "+--+-000+" [9841, 1, 5, 0, -9841]

/-- R75: two trits hold -4 to 4. -/
theorem test_wf_registerField :
    registerFieldFits 4 = true ∧ registerFieldFits (-4) = true ∧ registerFieldFits 5 = false ∧
      registerFieldFits (-5) = false := by decide

/-- R74, R76: at W = 9 the field K holds -40 to 40. -/
theorem test_wf_wordField :
    wordFieldFits 9 40 = true ∧ wordFieldFits 9 (-40) = true ∧ wordFieldFits 9 41 = false ∧
      wordFieldFits 9 (-41) = false := by decide

/-- R74, R76: at W = 9 the field KB holds -13 to 13. -/
theorem test_wf_branchField :
    branchFieldFits 9 13 = true ∧ branchFieldFits 9 (-13) = true ∧ branchFieldFits 9 14 = false ∧
      branchFieldFits 9 (-14) = false := by decide

/-- An ill-formed term for every check of every constructor: each is refused. -/
theorem test_wf_refusesIllFormed :
    ([.loadi 5 0, .loadi 0 41, .loadm (-5) 0, .loadm 0 41, .store 5 0, .store 0 (-41), .move 5 0, .move 0 5,
      .add 5 0 0, .add 0 5 0, .add 0 0 5, .sub 5 0 0, .sub 0 5 0, .sub 0 0 5, .mul 5 0 0, .mul 0 5 0,
      .mul 0 0 5, .neg 5 0, .neg 0 5, .and 5 0 0, .and 0 5 0, .and 0 0 5, .or 5 0 0, .or 0 5 0,
      .or 0 0 5, .jmp 41, .js 5 .zero 0, .js 0 .zero 14, .sgn 5 0, .sgn 0 5] : List Instr).all (fun i => !i.wf 9) = true := by decide

/-- V6, R74, R78. -/
theorem test_decode_halt :
    decode 9 (w "000000000") = .instr (.halt) ∧ encode 9 (.halt) = w "000000000" := by decide

/-- V6, R74, R78. -/
theorem test_decode_loadi :
    decode 9 (w "00++-----") = .instr (.loadi 2 (-40)) ∧ encode 9 (.loadi 2 (-40)) = w "00++-----" := by decide

/-- V6, R74, R78. -/
theorem test_decode_loadm :
    decode 9 (w "0+-0++-+-") = .instr (.loadm 1 20) ∧ encode 9 (.loadm 1 20) = w "0+-0++-+-" := by decide

/-- V6, R74, R78. -/
theorem test_decode_store :
    decode 9 (w "0+00++-+0") = .instr (.store 1 21) ∧ encode 9 (.store 1 21) = w "0+00++-+0" := by decide

/-- V6, R74, R78. -/
theorem test_decode_move :
    decode 9 (w "0+++00+00") = .instr (.move 3 1) ∧ encode 9 (.move 3 1) = w "0+++00+00" := by decide

/-- V6, R74, R78. -/
theorem test_decode_add :
    decode 9 (w "+--+-000+") = .instr (.add 2 0 1) ∧ encode 9 (.add 2 0 1) = w "+--+-000+" := by decide

/-- V6, R74, R78. -/
theorem test_decode_sub :
    decode 9 (w "+-0+-000+") = .instr (.sub 2 0 1) ∧ encode 9 (.sub 2 0 1) = w "+-0+-000+" := by decide

/-- V6, R74, R78. -/
theorem test_decode_mul :
    decode 9 (w "+-++-000+") = .instr (.mul 2 0 1) ∧ encode 9 (.mul 2 0 1) = w "+-++-000+" := by decide

/-- V6, R74, R78. -/
theorem test_decode_neg :
    decode 9 (w "+0-0+0000") = .instr (.neg 1 0) ∧ encode 9 (.neg 1 0) = w "+0-0+0000" := by decide

/-- V6, R74, R78. -/
theorem test_decode_and :
    decode 9 (w "+00+-000+") = .instr (.and 2 0 1) ∧ encode 9 (.and 2 0 1) = w "+00+-000+" := by decide

/-- V6, R74, R78. -/
theorem test_decode_or :
    decode 9 (w "+0++-000+") = .instr (.or 2 0 1) ∧ encode 9 (.or 2 0 1) = w "+0++-000+" := by decide

/-- V6, R74, R78. -/
theorem test_decode_jmp :
    decode 9 (w "++-000+--") = .instr (.jmp 5) ∧ encode 9 (.jmp 5) = w "++-000+--" := by decide

/-- V6, R74, R78. -/
theorem test_decode_js :
    decode 9 (w "++000----") = .instr (.js 0 .negative (-13)) ∧ encode 9 (.js 0 .negative (-13)) = w "++000----" := by decide

/-- V6, R74, R78. -/
theorem test_decode_sgn :
    decode 9 (w "++++++000") = .instr (.sgn 4 3) ∧ encode 9 (.sgn 4 3) = w "++++++000" := by decide

/-- V7: negative register fields decode; they fault at execute. -/
theorem test_decode_negativeFields :
    decode 9 (w "++0---+++") = .instr (.js (-4) .negative 13) ∧
      decode 9 (w "+--+-000-") = .instr (.add 2 0 (-1)) ∧ decode 9 (w "0+-0+----") = .instr (.loadm 1 (-40)) := by decide

/-- V7, R80: a negative opcode value. -/
theorem test_decode_reservedOpcodes :
    ["-00000000", "---------", "0-+000000", "00-000000"].all
      (fun t => decide (decode 9 (w t) = .invalid .reservedOpcode)) = true := by decide

/-- V7, R80: a trit of a must-be-zero field is not zero. -/
theorem test_decode_nonzeroFields :
    ["00000000+", "0+++00+0+", "+0-0+000-", "++-+0000+", "++-0-0000", "+++++++0+"].all
      (fun t => decide (decode 9 (w t) = .invalid .nonzeroField)) = true := by decide

/-- R74 at W = 12: format R has the must-be-zero field Z, and K has seven trits (-191 = `0-+-0-+` by R150). -/
theorem test_decode_wideWord :
    decode 12 (w "+--+-000+000") = .instr (.add 2 0 1) ∧
      decode 12 (w "+--+-000+00-") = .invalid .nonzeroField ∧
      decode 12 (w "00+0+0-+-0-+") = .instr (.loadi 1 (-191)) := by decide

/-- Log entry 3: two bits a trit; `11` is no trit. -/
theorem test_decodeTableWord :
    decodeTableWord 18 0 = some .halt ∧ decodeTableWord 18 0x1a001 = some (.add 0 0 1) ∧
      decodeTableWord 18 3 = none ∧ decodeTableWord 18 0x20000 = none := by decide

/-- V6: HALT keeps the PC. -/
theorem test_step_halt :
    stepStop (machine "000000000" [0, 0, 0, 0, 0]) = some (.halted, .none, w "0000000+0") := by decide

/-- V6. -/
theorem test_step_loadi :
    stepReg (machine "00++-----" [0, 0, 7, 0, 0]) 2 = some (w "00000----", w "0000000++") := by decide

/-- V6: LOADM of its own word. -/
theorem test_step_loadm_own :
    stepReg (machine "0+-0+00+0" [0, 0, 0, 0, 0]) 1 = some (w "0+-0+00+0", w "0000000++") := by decide

/-- V6: LOADM of address 27 faults. -/
theorem test_step_loadm_bad :
    stepStop (machine "0+-0++000" [0, 9, 0, 0, 0]) = some (.faulted, .address, w "0000000+0") := by decide

/-- V6. -/
theorem test_step_store :
    (nextOf (step (machine "0+00++-+0" [0, 100, 0, 0, 0]))).map (fun t => (t.memRead 21, t.pc))
      = some (w "0000++-0+", w "0000000++") := by decide

/-- V6: STORE to address 40 faults. -/
theorem test_step_store_bad :
    stepStop (machine "0+00+++++" [0, 100, 0, 0, 0]) = some (.faulted, .address, w "0000000+0") := by decide

/-- V6. -/
theorem test_step_move :
    stepReg (machine "0+++00+00" [0, 100, 0, 0, 0]) 3 = some (w "0000++-0+", w "0000000++") := by decide

/-- V6: ADD with all three fields the same register. -/
theorem test_step_add_same :
    stepReg (machine "+--000000" [-4920, 0, 0, 0, 0]) 0 = some (w "--------0", w "0000000++") := by decide

/-- V6. -/
theorem test_step_add_overflow :
    stepStop (machine "+--+-000+" [9841, 1, 5, 0, 0]) = some (.faulted, .overflow, w "0000000+0") := by decide +kernel

/-- V6: 0 - (-9841). -/
theorem test_step_sub :
    stepReg (machine "+-0+-000+" [0, -9841, 0, 0, 0]) 2 = some (w "+++++++++", w "0000000++") := by decide

/-- V6. -/
theorem test_step_sub_overflow :
    stepStop (machine "+-0+-000+" [-9841, 1, 0, 0, 0]) = some (.faulted, .overflow, w "0000000+0") := by decide +kernel

/-- V6. -/
theorem test_step_mul :
    stepReg (machine "+-++-000+" [100, -40, 0, 0, 0]) 2 = some (w "-++---0--", w "0000000++") := by decide

/-- V6. -/
theorem test_step_mul_overflow :
    stepStop (machine "+-++-000+" [100, 100, 1, 0, 0]) = some (.faulted, .overflow, w "0000000+0") := by decide

/-- V6: NEG of a register into itself. -/
theorem test_step_neg :
    stepReg (machine "+0-0+0+00" [0, -9841, 0, 0, 0]) 1 = some (w "+++++++++", w "0000000++") := by decide

/-- V6. -/
theorem test_step_and :
    stepReg (machine "+00+-000+" [6056, 9464, 0, 0, 0]) 2 = some (w "+0-00----", w "0000000++") := by decide

/-- V6. -/
theorem test_step_or :
    stepReg (machine "+0++-000+" [6056, 9464, 0, 0, 0]) 2 = some (w "++++00+0-", w "0000000++") := by decide

/-- V6. -/
theorem test_step_sgn :
    stepReg (machine "++++++000" [0, 0, 0, -5, 0]) 4 = some (w "00000000-", w "0000000++") := by decide

/-- V6: a jump to -1 is no fault of the JMP. -/
theorem test_step_jmp :
    stepStop (machine "++-00000-" [0, 0, 0, 0, 0]) = some (.running, .none, w "00000000-") := by decide

/-- V6. -/
theorem test_step_js_taken :
    stepStop (machine "++000----" [-1, 0, 0, 0, 0]) = some (.running, .none, w "000000---") := by decide

/-- V6. -/
theorem test_step_js_notTaken :
    stepStop (machine "++0000+-+" [-5, 0, 0, 0, 0]) = some (.running, .none, w "0000000++") := by decide

/-- V8. -/
theorem test_step_invalidOpcode :
    stepStop (machine "-00000000" [0, 0, 0, 0, 0]) = some (.faulted, .invalidOpcode, w "0000000+0") := by decide

/-- V8. -/
theorem test_step_registerBeforeAddress :
    stepStop (machine "0+-0-+0+0" [0, 0, 0, 0, 0]) = some (.faulted, .address, w "0000000+0") := by decide

/-- V8: with NREG = 4, register 4 is invalid; ADDRESS wins over OVERFLOW (R305). -/
theorem test_step_registerBeforeOverflow :
    stepStop { machine "+--++000+" [9841, 1, 0, 0] with cfg := ⟨9, 4, 27⟩ }
      = some (.faulted, .address, w "0000000+0") := by decide

/-- V8: the fetch from address 30 faults; the PC keeps the bad target. -/
theorem test_step_badTarget :
    stepStop ((machine "000000000" [0, 0, 0, 0, 0]).setPc (w "00000+0+0"))
      = some (.faulted, .address, w "00000+0+0") := by decide

/-- V8: MOVE r0, r0 at address 9841 cannot advance the PC (R187). -/
theorem test_step_pcOverflow :
    stepStop ⟨⟨9, 5, 9842⟩, List.replicate 5 (Word.zero 9), w "+++++++++", [(9841, w "0++000000")], .running, .none⟩
      = some (.faulted, .overflow, w "+++++++++") := by decide

/-- R185: the first step enters Running and executes the word at 0, here a HALT. -/
theorem test_step_ready :
    stepStop State.reset = some (.halted, .none, w "000000000") := by decide

/-- R191, R192. -/
theorem test_step_stopped :
    stepCall { base with runState := .halted } = (.ok, { base with runState := .halted }) ∧
      stepCall (takeFault base .overflow) = (.stepAfterFault, takeFault base .overflow) := by decide

/-- The invariant holds at reset and in the machine of the tests. -/
theorem test_reset_wf :
    State.wf State.reset ∧ State.wf base := by decide

/-- Log entry 3: LOADI r0, #1 (`00+00000+`) placed at address 0 is what the next step runs. -/
theorem test_withFetchWord :
    (nextOf (step (State.reset.withFetchWord 18 0x1001))).map (fun t => (t.reg 0, t.pc))
      = some (w "00000000+", w "00000000+") := by decide

/-- V9. -/
theorem test_construct_configError :
    (construct 8 5 1 [Trits.zeros 8]).isOk = false ∧ (construct 9 6 1 [Trits.zeros 9]).isOk = false ∧
      (construct 9 5 0 []).isOk = false ∧ (construct 9 5 2 [Trits.zeros 9]).isOk = false ∧
      (construct 9 5 1 [Trits.zeros 9]).isOk = true := by decide

/-- V9, R180, R181. -/
theorem test_register_write :
    writeRegister 9 (w "00000000+") 9842 = (w "00000000+", some .overflowError) ∧
      writeRegisterTrits 9 (w "00000000+") (w "0+++++++++").trits = (w "+++++++++", none) := by decide

/-- V3. -/
theorem test_sequences :
    (Trits.add (w "++++").trits (w "+").trits, Trits.multiply (w "---").trits (w "--").trits)
      = ((w "+----").trits, (w "+-0-+").trits) := by decide

/-- V4. -/
theorem test_views :
    Trits.int (w "++-0+").trits = 100 ∧ canon (-100) = (w "--+0-").trits ∧ Trits.uint (w "+-0").trits = 19 ∧
      toUtrits 27 3 = .error .overflowError ∧ Trits.sign (w "0000-++++").trits = .negative := by decide

/-- R84 to R86: `loop` is address 1; JP is JS with `+`. -/
theorem test_assembler :
    (Asm.assembleText 9 "LOAD r0, #+1\nloop: JP r0, @loop ; again\nHALT").toOption
      = some [w "00+00000+", w "++000+00+", w "000000000"] := by decide

theorem test_witness_IntIsABijectionAtFixedWidth :
    (w "+-0").trits.length = (w "+-0").trits.length ∧ -(maxPos 2 : Int) ≤ -4 ∧ (4 : Int) ≤ maxPos 2 := by decide

theorem test_witness_UnsignedViewRoundTrips :
    ((0 : Int) ≤ 26 ∧ (26 : Int) ≤ 3 ^ 3 - 1) ∧ (-1 : Int) < 0 ∧ (3 : Int) ^ 3 ≤ 27 := by decide

theorem test_witness_SignIsTheSignOfInt :
    Trits.sign (w "+--").trits ≠ .zero := by decide

theorem test_witness_SequenceNegationNegatesInt :
    0 < (w "+-0").trits.length ∧ 2 < (w "+-0").trits.length := by decide

theorem test_witness_SequenceGatesActPerPosition :
    0 < max (w "+").trits.length (w "+-0").trits.length ∧ 2 < max (w "+").trits.length (w "+-0").trits.length := by decide

theorem test_witness_TextFormRoundTrips :
    Trits.ofChars ['+', '-', '0'] = .ok (w "+-0").trits := by decide

theorem test_witness_UnsignedArithmeticIsByValue :
    (0 ≤ (Trits.uint (Trits.uext 1 [.negative]) : Int) + Trits.uint (Trits.uext 1 [.zero]) ∧
        (Trits.uint (Trits.uext 1 [.negative]) : Int) + Trits.uint (Trits.uext 1 [.zero]) ≤ 3 ^ 1 - 1) ∧
      (3 : Int) ^ 1 ≤ (Trits.uint (Trits.uext 1 [.positive]) : Int) + Trits.uint (Trits.uext 1 [.zero]) ∧
      (Trits.uint (Trits.uext 1 [.zero]) : Int) - Trits.uint (Trits.uext 1 [.positive]) < 0 ∧
      (Trits.uint (Trits.uext 1 [.zero]) : Int) * Trits.uint (Trits.uext 1 [.zero]) ≤ 3 ^ 1 - 1 := by decide

theorem test_witness_WordAdderCarryEquation :
    (w "+++++++++").trits.length = 9 ∧ (w "00000000+").trits.length = 9 ∧ ([] : Trits).length = 0 := by decide

theorem test_witness_WordGateLawsHold :
    (w "+++++++++").trits.length = 9 ∧ (w "00000000+").trits.length = 9 ∧ (w "0000++-0+").trits.length = 9 := by decide

theorem test_witness_WordMultiplierOverflowIsExact :
    (w "0000++-0+").trits.length = 9 ∧ (w "---------").trits.length = 9 ∧ (w "00000000-").trits.length = 9 ∧
      multiplierOverflow (mulw (w "0000++-0+") (w "0000++-0+")) = true ∧
      multiplierOverflow (mulw (w "---------") (w "00000000-")) = false := by decide

theorem test_witness_RegisterWriteRejectsOverflow :
    (9841 : Int).natAbs ≤ maxPos 9 ∧ maxPos 9 < (-9842 : Int).natAbs ∧ (w "+++++++++").trits.length = 9 := by decide

theorem test_witness_FixedWidthArithmeticIsExactOrRejected :
    (w "+++++++++").trits.length = 9 ∧ (w "00000000+").trits.length = 9 ∧
      ((w "+-+-+-+-0").int + (w "+-+-+-+-+").int).natAbs ≤ maxPos 9 ∧
      maxPos 9 < ((w "+++++++++").int + (w "00000000+").int).natAbs ∧
      ((w "000000000").int - (w "---------").int).natAbs ≤ maxPos 9 ∧
      maxPos 9 < ((w "---------").int - (w "00000000+").int).natAbs ∧
      ((w "---------").int * (w "00000000-").int).natAbs ≤ maxPos 9 ∧
      maxPos 9 < ((w "+--------").int * (w "0000000+0").int).natAbs := by decide

theorem test_witness_DecodeOfEncodeIsTheInstruction :
    9 ≤ 9 ∧ (Instr.js (-4) .positive 13).wf 9 = true ∧ (Instr.add 4 (-4) 4).wf 12 = true := by decide

theorem test_witness_EveryInstructionHasOneEncoding :
    9 ≤ 9 ∧ (w "++0---+++").trits.length = 9 ∧ decode 9 (w "++0---+++") = .instr (.js (-4) .negative 13) := by decide

theorem test_witness_InvalidWordsAreExactlyTheIllegalOnes :
    9 ≤ 9 ∧ (w "00000000+").trits.length = 9 ∧ 9 ≤ 12 ∧ (w "+--+-000+00-").trits.length = 12 := by decide

theorem test_witness_ConstructionGivesTheResetState :
    (9 ≤ 9 ∧ 1 ≤ 1 ∧ 1 ≤ 5 ∧ 1 ≤ 1 ∧ 1 ≤ maxPos 9 + 1 ∧ [Trits.zeros 9].length = 1 ∧
        ∀ t ∈ [Trits.zeros 9], t.length = 9) ∧
      ¬ (9 ≤ 9 ∧ 1 ≤ 6 ∧ 6 ≤ 5 ∧ 1 ≤ 1 ∧ 1 ≤ maxPos 9 + 1 ∧ [Trits.zeros 9].length = 1 ∧
        ∀ t ∈ [Trits.zeros 9], t.length = 9) := by decide

theorem test_witness_EveryStepKeepsTheInvariant :
    State.wf base ∧ ∃ t, step base = .next t := ⟨by decide, _, rfl⟩

theorem test_witness_StepRunsTheDecodedInstruction :
    AddressInRange base base.pc.int ∧ decode 9 (base.memRead 3) = .instr (.add 2 0 1) ∧
      base.runState = .running ∧ (base.setRunState .ready).runState = .ready := by decide

theorem test_witness_FirstCauseIsTheFaultReported :
    State.wf base ∧ base.live = true ∧ firstFault base = none ∧
      State.wf big ∧ big.live = true ∧ firstFault big = some .overflow ∧
      State.wf top ∧ top.live = true ∧ firstFault top = some .address := by decide

theorem test_witness_RunStateTransitionsAreTheListedOnes :
    State.wf base ∧ (∃ t, step base = .next t) ∧ State.wf (takeFault base .address) ∧
      (takeFault base .address).runState = .faulted := ⟨by decide, ⟨_, rfl⟩, by decide, rfl⟩

theorem test_witness_StoppedMachinesStayStopped :
    (base.setRunState .halted).runState = .halted ∧ (takeFault base .overflow).runState = .faulted := by decide

theorem test_witness_RunStopsAtItsBoundOrAtAStop :
    0 < (run 1 State.reset).2.1 ∧ (run 2 State.reset).2.1 < 2 := by decide

theorem test_witness_InvalidRegisterFieldFaults :
    (∃ f ∈ (Instr.add 0 5 0).registerFields, f < 0 ∨ (base.cfg.nreg : Int) ≤ f) ∧
      ∃ f ∈ (Instr.sgn 4 (-1)).registerFields, f < 0 ∨ (base.cfg.nreg : Int) ≤ f := by decide

theorem test_witness_OnlyStoreWritesMemory :
    ∃ t, step (machine "0+00++--+" [0, 100, 0, 0, 0]) = .next t ∧
      t.memRead 16 ≠ (machine "0+00++--+" [0, 100, 0, 0, 0]).memRead 16 := ⟨_, rfl, by decide⟩

theorem test_witness_OneWritePerStep :
    ∃ t, step base = .next t ∧ t.regs[2]? ≠ base.regs[2]? := ⟨_, rfl, by decide⟩

theorem test_witness_StoredWordIsSeenByTheNextFetch :
    State.wf base ∧ FieldsValid base [1] ∧ AddressInRange base 26 ∧ PcAdvances base ∧
      (∃ t, exec (.store 1 26) base = .next t) ∧ (w "00000+00-").int = 26 := ⟨by decide, by decide, by decide, by decide, ⟨_, rfl⟩, by decide⟩

theorem test_witness_InstancesShareNothing :
    (0 : Nat) ≠ 1 ∧ [base, State.reset][0]? = some base := by decide

theorem test_witness_LoadiLoadsTheImmediate :
    (Instr.loadi (-4) 40).wf 9 = true ∧
      (wordFieldFits edge.cfg.width (-40) = true ∧ FieldsValid edge [4] ∧ PcAdvances edge) ∧
      (wordFieldFits top.cfg.width 40 = true ∧ FieldsValid top [0] ∧ ¬ PcAdvances top) ∧
      ¬ FieldsValid base [5] := by decide

theorem test_witness_LoadmLoadsTheMemoryWord :
    (Instr.loadm 4 (-40)).wf 9 = true ∧
      (FieldsValid edge [4] ∧ AddressInRange edge 26 ∧ PcAdvances edge) ∧
      (FieldsValid top [0] ∧ AddressInRange top 0 ∧ ¬ PcAdvances top) ∧
      (FieldsValid base [4] ∧ ¬ AddressInRange base 27 ∧ ¬ AddressInRange base (-1)) ∧
      ¬ FieldsValid base [-1] := by decide

theorem test_witness_StoreWritesTheMemoryWord :
    (Instr.store 4 (-40)).wf 9 = true ∧
      (FieldsValid edge [4] ∧ AddressInRange edge 26 ∧ PcAdvances edge) ∧
      (FieldsValid top [0] ∧ AddressInRange top 0 ∧ ¬ PcAdvances top) ∧
      (FieldsValid base [4] ∧ ¬ AddressInRange base 27 ∧ ¬ AddressInRange base (-1)) ∧
      ¬ FieldsValid base [-1] := by decide

theorem test_witness_MoveCopiesTheRegister :
    (Instr.move 4 (-4)).wf 9 = true ∧
      (FieldsValid edge [4, 0] ∧ PcAdvances edge) ∧
      (FieldsValid top [4, 0] ∧ ¬ PcAdvances top) ∧
      ¬ FieldsValid base [0, 5] := by decide

theorem test_witness_AddGivesTheExactSumOrFaults :
    (Instr.add 4 (-4) 4).wf 9 = true ∧
      (State.wf big ∧ FieldsValid big [4, 3, 0] ∧ FitsWord big ((big.reg 3).int + (big.reg 0).int) ∧ PcAdvances big) ∧
      (State.wf big ∧ FieldsValid big [4, 0, 1] ∧ ¬ FitsWord big ((big.reg 0).int + (big.reg 1).int)) ∧
      (State.wf top ∧ FieldsValid top [4, 2, 2] ∧ FitsWord top ((top.reg 2).int + (top.reg 2).int) ∧ ¬ PcAdvances top) ∧
      ¬ FieldsValid base [0, 0, 5] := by decide

theorem test_witness_SubGivesTheExactDifferenceOrFaults :
    (Instr.sub 4 (-4) 4).wf 9 = true ∧
      (State.wf big ∧ FieldsValid big [4, 3, 4] ∧ FitsWord big ((big.reg 3).int - (big.reg 4).int) ∧ PcAdvances big) ∧
      (State.wf big ∧ FieldsValid big [4, 4, 1] ∧ ¬ FitsWord big ((big.reg 4).int - (big.reg 1).int)) ∧
      (State.wf top ∧ FieldsValid top [4, 2, 2] ∧ FitsWord top ((top.reg 2).int - (top.reg 2).int) ∧ ¬ PcAdvances top) ∧
      ¬ FieldsValid base [0, 0, 5] := by decide

theorem test_witness_MulGivesTheExactProductOrFaults :
    (Instr.mul 4 (-4) 4).wf 9 = true ∧
      (State.wf big ∧ FieldsValid big [4, 0, 1] ∧ FitsWord big ((big.reg 0).int * (big.reg 1).int) ∧ PcAdvances big) ∧
      (State.wf big ∧ FieldsValid big [4, 0, 0] ∧ ¬ FitsWord big ((big.reg 0).int * (big.reg 0).int)) ∧
      (State.wf top ∧ FieldsValid top [4, 2, 2] ∧ FitsWord top ((top.reg 2).int * (top.reg 2).int) ∧ ¬ PcAdvances top) ∧
      ¬ FieldsValid base [0, 0, 5] := by decide

theorem test_witness_NegNegatesEveryTrit :
    (Instr.neg 4 (-4)).wf 9 = true ∧
      (State.wf edge ∧ FieldsValid edge [4, 0] ∧ PcAdvances edge) ∧
      (FieldsValid top [4, 0] ∧ ¬ PcAdvances top) ∧
      ¬ FieldsValid base [5, 0] := by decide

theorem test_witness_SgnWritesTheSign :
    (Instr.sgn 4 (-4)).wf 9 = true ∧
      (State.wf edge ∧ FieldsValid edge [4, 0] ∧ PcAdvances edge) ∧
      (FieldsValid top [4, 0] ∧ ¬ PcAdvances top) ∧
      ¬ FieldsValid base [5, 0] := by decide

theorem test_witness_AndIsMinAtEveryTrit :
    (Instr.and 4 (-4) 4).wf 9 = true ∧
      (State.wf edge ∧ FieldsValid edge [4, 0, 1] ∧ PcAdvances edge) ∧
      (FieldsValid top [4, 0, 1] ∧ ¬ PcAdvances top) ∧
      ¬ FieldsValid base [0, -1, 0] := by decide

theorem test_witness_OrIsMaxAtEveryTrit :
    (Instr.or 4 (-4) 4).wf 9 = true ∧
      (State.wf edge ∧ FieldsValid edge [4, 0, 1] ∧ PcAdvances edge) ∧
      (FieldsValid top [4, 0, 1] ∧ ¬ PcAdvances top) ∧
      ¬ FieldsValid base [0, -1, 0] := by decide

theorem test_witness_JmpGoesToItsTarget :
    (Instr.jmp (-40)).wf 9 = true ∧
      ((w "0-").trits.length = 2 ∧ (w "0-").trits ≠ Trits.zeros 2) ∧
      wordFieldFits base.cfg.width 40 = true ∧
      (wordFieldFits base.cfg.width 27 = true ∧ ¬ AddressInRange base 27 ∧ base.runState = .running) := by decide

theorem test_witness_JsJumpsWhenTheSignMatches :
    (Instr.js 4 .zero (-13)).wf 9 = true ∧
      (State.wf base ∧ branchFieldFits base.cfg.width 13 = true ∧ FieldsValid base [4] ∧
        (base.reg 4).int.sign = Trit.negative.toInt) ∧
      (FieldsValid edge [3] ∧ (edge.reg 3).int.sign ≠ Trit.positive.toInt ∧ PcAdvances edge) ∧
      (FieldsValid top [0] ∧ (top.reg 0).int.sign ≠ Trit.zero.toInt ∧ ¬ PcAdvances top) ∧
      ¬ FieldsValid base [-4] ∧
      (branchFieldFits base.cfg.width (-1) = true ∧ ¬ AddressInRange base (-1) ∧ base.runState = .running) := by decide

theorem test_witness_HaltStopsAndKeepsEverything :
    ((w "00000000+").trits.length = 9 ∧ Trits.slice (w "00000000+").trits 8 6 = Trits.zeros 3 ∧
        w "00000000+" ≠ Word.zero 9) ∧
      (machine "000000000" [0, 0, 0, 0, 0]).runState = .running ∧
      AddressInRange (machine "000000000" [0, 0, 0, 0, 0]) 3 ∧
      (machine "000000000" [0, 0, 0, 0, 0]).memRead 3 = Word.zero 9 := by decide

theorem test_witness_FrameOfRegisterInstructions :
    destination (.add 2 0 1) = some 2 ∧ (∃ t, exec (.add 2 0 1) base = .next t) ∧
      ∃ t, exec (.loadm 5 0) base = .next t := ⟨rfl, ⟨_, rfl⟩, ⟨_, rfl⟩⟩

theorem test_witness_FrameOfStore :
    (∃ t, exec (.store 1 26) base = .next t) ∧ effectiveAddress base 26 = .ok 26 ∧
      effectiveAddress base 27 = .error .address := ⟨⟨_, rfl⟩, rfl, rfl⟩

theorem test_witness_FrameOfControlInstructions :
    (∃ t, exec .halt base = .next t) ∧ (∃ t, exec (.jmp 40) base = .next t) ∧
      ∃ t, exec (.js 4 .negative 13) base = .next t := ⟨⟨_, rfl⟩, ⟨_, rfl⟩, ⟨_, rfl⟩⟩

theorem test_witness_AssembledWordsDecodeBack :
    (∃ x, Asm.wordOf 9 (.add 4 0 0) = .ok x) ∧
      Asm.wordOf 9 (.add (-1) 0 0) = .error .doesNotFit ∧ Asm.wordOf 9 (.jmp 41) = .error .doesNotFit := ⟨⟨_, rfl⟩, rfl, rfl⟩

theorem test_witness_SourceLinesAssembleToTheirInstruction :
    (9 ≤ 9 ∧ (Instr.loadi (4 : Nat) (-40)).wf 9 = true ∧ (Instr.loadi (5 : Nat) 0).wf 9 = false ∧
        (Instr.jmp 41).wf 9 = false) ∧
      ((w "+++++++++").trits.length = 9 ∧ (w "++++++++++").trits.length ≠ 9) ∧
      (['A', 'D'] ≠ [] ∧ (∀ c ∈ ['A', 'D'], c ∉ [' ', '\t', '\r', '\n', ';', ':']) ∧
        (∀ c ∈ ['r', '0'], c ≠ ':' ∧ c ≠ '\n') ∧ String.ofList ['A', 'D'] ∉ ["HALT", "LOADI", "LOADM", "STORE",
          "MOVE", "ADD", "SUB", "MUL", "NEG", "AND", "OR", "JMP", "JS", "SGN", "LOAD", "NOT", "JN", "JZ", "JP", "NOP",
          "CLR", ".word"]) := ⟨by decide, by decide, by simp, by simp, by simp, by simp⟩

theorem test_witness_LabelsNameTheNextWordsAddress :
    (Asm.isName ['_', '1'] = true ∧ (∀ c ∈ ['H', 'A', 'L', 'T'], c ≠ ';') ∧
        Asm.parseBody ['H', 'A', 'L', 'T'] = .ok (some (.plain .halt))) ∧
      Asm.distinctNames ((Asm.labelTable 0 ([⟨none, some (.plain .halt)⟩] ++ ⟨some ['x'], none⟩ :: [])).map Prod.fst)
        = true ∧
      Asm.resolve [(['x'], 1)] (.label ['x']) = .ok 1 ∧
      ∃ ws, Asm.assemble 9 ['H', 'A', 'L', 'T'] = .ok ws := ⟨⟨rfl, by simp, rfl⟩, by simp [Asm.labelTable, Asm.distinctNames], rfl, _, rfl⟩

end Sys2Proof.Tests
end

section
/-! SUPPORT. Which constructions the host's `construct` accepts (R9), and the state after one (R36, R332). -/

namespace Sys2Proof.Machine

/-- The parameters are in the ranges of R7, and the image is `M` words of `W` trits (R52). -/
abbrev ConstructionInRange (width nreg memWords : Nat) (image : List Trits) : Prop :=
  9 ≤ width ∧ 1 ≤ nreg ∧ nreg ≤ 5 ∧ 1 ≤ memWords ∧ memWords ≤ maxPos width + 1 ∧
    image.length = memWords ∧ ∀ t ∈ image, t.length = width

/-- The two checks of `construct` together are the ranges. -/
theorem valid_and_imageValid_iff (width nreg memWords : Nat) (image : List Trits) :
    (Config.valid ⟨width, nreg, memWords⟩ && imageValid ⟨width, nreg, memWords⟩ image) = true ↔
      ConstructionInRange width nreg memWords image := by
  simp [Config.valid, imageValid, and_assoc]

theorem construct_ok {width nreg memWords : Nat} {image : List Trits}
    (h : ConstructionInRange width nreg memWords image) :
    construct width nreg memWords image =
      .ok (State.constructed ⟨width, nreg, memWords⟩ (Memory.ofImage width 0 image)) :=
  if_pos ((valid_and_imageValid_iff width nreg memWords image).2 h)

theorem construct_configError {width nreg memWords : Nat} {image : List Trits}
    (h : ¬ ConstructionInRange width nreg memWords image) :
    construct width nreg memWords image = .error .configError :=
  if_neg fun checks => h ((valid_and_imageValid_iff width nreg memWords image).1 checks)

section
variable (c : Config) (m : Memory)

@[simp] theorem State.constructed_cfg : (State.constructed c m).cfg = c := rfl
@[simp] theorem State.constructed_regs :
    (State.constructed c m).regs = List.replicate c.nreg (Word.zero c.width) := rfl
@[simp] theorem State.constructed_pc : (State.constructed c m).pc = Word.zero c.width := rfl
@[simp] theorem State.constructed_mem : (State.constructed c m).mem = m := rfl
@[simp] theorem State.constructed_runState : (State.constructed c m).runState = .ready := rfl
@[simp] theorem State.constructed_fault : (State.constructed c m).fault = .none := rfl

end

/-- A constructed machine reads its image back at every address (R36). -/
theorem State.constructed_memRead (c : Config) (image : List Trits) (a : Nat) (h : a < image.length) :
    (State.constructed c (Memory.ofImage c.width 0 image)).memRead a = ⟨image[a]⟩ := by
  simpa [State.memRead] using Memory.read_ofImage image 0 a h

/-- A construction with valid parameters and a canonical memory meets the machine invariant. -/
theorem State.constructed_wf {c : Config} {m : Memory} (hc : c.valid = true)
    (hm : Memory.wf c.width c.memWords m) : (State.constructed c m).wf := by
  have regsWidth : ∀ r ∈ (State.constructed c m).regs, r.trits.length = c.width := by
    intro r hr
    rw [List.eq_of_mem_replicate hr, Word.length_zero]
  exact ⟨hc, List.length_replicate, regsWidth, Word.length_zero c.width, hm, by simp⟩

/-- Within the ranges, the checked parameters are valid and the memory of the image is canonical. -/
theorem State.constructed_ofImage_wf {width nreg memWords : Nat} {image : List Trits}
    (h : ConstructionInRange width nreg memWords image) :
    (State.constructed ⟨width, nreg, memWords⟩ (Memory.ofImage width 0 image)).wf := by
  have checks := (valid_and_imageValid_iff width nreg memWords image).2 h
  obtain ⟨hvalid, -⟩ := Bool.and_eq_true_iff.1 checks
  obtain ⟨-, -, -, -, -, imageLength, wordLengths⟩ := h
  obtain ⟨memoryWf, -⟩ := Memory.ofImage_wf (memWords := memWords) image 0 (by omega) wordLengths
  exact State.constructed_wf hvalid memoryWf

/-- Settles O25: the checks of `construct` are the ranges of R7, and what it builds within them is
`State.constructed` with the memory of the image. -/
theorem constructionGivesTheResetState : Obligations.ConstructionGivesTheResetState := by
  intro width nreg memWords image
  refine ⟨fun inRange => ?_, construct_configError⟩
  have zeroRegs : ∀ n, n < nreg → (List.replicate nreg (Word.zero width))[n]? = some (Word.zero width) :=
    fun _ hn => List.getElem?_replicate_of_lt hn
  exact ⟨_, construct_ok inRange, rfl, List.length_replicate, zeroRegs, rfl,
    State.constructed_memRead ⟨width, nreg, memWords⟩ image, rfl, rfl,
    State.constructed_ofImage_wf inRange⟩

end Sys2Proof.Machine
end

section
/-! SUPPORT. The values and lengths behind the invariant: a sequence of `n` trits holds at most `MAXPOS(n)` in absolute
value (R152), and a value of at most `MAXPOS(n)` is written in `n` trits (R155, R162). -/

namespace Sys2Proof

theorem Trits.natAbs_int_le_maxPos (t : Trits) : (Trits.int t).natAbs ≤ maxPos t.length := by
  induction t with
  | nil => rfl
  | cons t rest ih =>
    have digit := t.toInt_bounds
    rw [Trits.int_cons, List.length_cons, maxPos_succ]
    omega

/-- Every round of the conversion loop takes one trit off the width that the value needs. -/
theorem length_canonLoop_le (fuel : Nat) :
    ∀ (n : Nat) (v : Int), v.natAbs ≤ maxPos n → (canonLoop fuel v).length ≤ n := by
  induction fuel with
  | zero => intro n v _; exact Nat.zero_le n
  | succ fuel ih =>
    intro n v hv
    rw [canonLoop]
    split
    · exact Nat.zero_le n
    · cases n with
      | zero => rw [maxPos_zero] at hv; omega
      | succ n =>
        rw [maxPos_succ] at hv
        have digit := lowDigit_spec v
        have rest := ih n ((v - lowDigit v) / 3) (by omega)
        rw [List.length_cons]
        omega

theorem length_canon_le {n : Nat} {v : Int} (h : v.natAbs ≤ maxPos n) : (canon v).length ≤ n :=
  length_canonLoop_le v.natAbs n v h

theorem Word.length_ofInt {n : Nat} {v : Int} (h : v.natAbs ≤ maxPos n) : (Word.ofInt n v).trits.length = n :=
  (Trits.length_sext n (canon v)).trans (max_eq_left (length_canon_le h))

/-- The low half of the product is as wide as the first operand, whether or not the product fits (R129). -/
theorem length_mulw_lo (a b : Word) : (mulw a b).lo.trits.length = a.trits.length := by
  show (List.take _ (Trits.sext _ (canon _))).length = _
  rw [List.length_take, Trits.length_sext]
  omega

end Sys2Proof
end

section
/-! SUPPORT. Every instruction but HALT is a register check and a write request (R186); what that request can be. -/

namespace Sys2Proof.Machine

/-- The write request `(regw, memw, next)` or the fault of an instruction's own rule (R186). HALT requests no
write; it is the one instruction that does not end its cycle by its request (R266). -/
def requestOf (s : State) : Instr → Request
  | .halt => .ok Writes.nothing
  | .loadi a k => loadiRequest s a k
  | .loadm a k => loadmRequest s a k
  | .store a k => storeRequest s a k
  | .move a b => .ok (Writes.toReg a (s.reg b))
  | .add a b c => adderRequest a (addw (s.reg b) (s.reg c) .zero)
  | .sub a b c => adderRequest a (addw (s.reg b) (negw (s.reg c)) .zero)
  | .mul a b c => multiplierRequest a (mulw (s.reg b) (s.reg c))
  | .neg a b => .ok (Writes.toReg a (negw (s.reg b)))
  | .and a b c => .ok (Writes.toReg a (andw (s.reg b) (s.reg c)))
  | .or a b c => .ok (Writes.toReg a (orw (s.reg b) (s.reg c)))
  | .jmp k => jumpRequest s k
  | .js a t kb => jsRequest s a t kb
  | .sgn a b => .ok (Writes.toReg a (Word.sext s.cfg.width [sgnw (s.reg b)]))

theorem exec_halt (s : State) : exec .halt s = .next (s.setRunState .halted) := rfl

theorem exec_eq_withRegisters (s : State) {i : Instr} (h : i ≠ .halt) :
    exec i s = withRegisters s i.registerFields (requestOf s i) := by
  cases i with
  | halt => exact absurd rfl h
  | _ => rfl

theorem loadiRequest_cases (s : State) (a k : Int) :
    (FitsWord s k ∧ loadiRequest s a k = .ok (Writes.toReg a (Word.ofInt s.cfg.width k))) ∨
    (¬ FitsWord s k ∧ loadiRequest s a k = .error .overflow) := by
  by_cases h : FitsWord s k
  · exact .inl ⟨h, by rw [loadiRequest, checkedWord_ok h]⟩
  · exact .inr ⟨h, by rw [loadiRequest, checkedWord_overflow h]⟩

theorem loadmRequest_cases (s : State) (a k : Int) :
    (AddressInRange s k ∧ loadmRequest s a k = .ok (Writes.toReg a (s.memRead k.toNat))) ∨
    (¬ AddressInRange s k ∧ loadmRequest s a k = .error .address) := by
  by_cases h : AddressInRange s k
  · exact .inl ⟨h, by rw [loadmRequest, effectiveAddress_ok h]⟩
  · exact .inr ⟨h, by rw [loadmRequest, effectiveAddress_fault h]⟩

theorem storeRequest_cases (s : State) (a k : Int) :
    (AddressInRange s k ∧ storeRequest s a k = .ok (Writes.toMem k.toNat (s.reg a))) ∨
    (¬ AddressInRange s k ∧ storeRequest s a k = .error .address) := by
  by_cases h : AddressInRange s k
  · exact .inl ⟨h, by rw [storeRequest, effectiveAddress_ok h]⟩
  · exact .inr ⟨h, by rw [storeRequest, effectiveAddress_fault h]⟩

theorem jumpRequest_cases (s : State) (k : Int) :
    (FitsWord s k ∧ jumpRequest s k = .ok (Writes.toPc (Word.ofInt s.cfg.width k))) ∨
    (¬ FitsWord s k ∧ jumpRequest s k = .error .overflow) := by
  by_cases h : FitsWord s k
  · exact .inl ⟨h, by rw [jumpRequest, checkedWord_ok h]⟩
  · exact .inr ⟨h, by rw [jumpRequest, checkedWord_overflow h]⟩

theorem jsRequest_cases (s : State) (a : Int) (t : Trit) (kb : Int) :
    jsRequest s a t kb = jumpRequest s kb ∨ jsRequest s a t kb = .ok Writes.nothing :=
  ite_eq_or_eq ..

theorem adderRequest_cases (a : Int) (r : AdderOut) :
    adderRequest a r = .error .overflow ∨ adderRequest a r = .ok (Writes.toReg a r.sum) :=
  ite_eq_or_eq ..

theorem multiplierRequest_cases (a : Int) (r : MultiplierOut) :
    multiplierRequest a r = .error .overflow ∨ multiplierRequest a r = .ok (Writes.toReg a r.lo) :=
  ite_eq_or_eq ..

end Sys2Proof.Machine
end

section
/-! SUPPORT. The lengths of the words that a machine meeting the invariant holds and reads (R20, R21, R25, R50). -/

namespace Sys2Proof.Machine

variable {s : State}

theorem State.wf.nine_le_width (h : s.wf) : 9 ≤ s.cfg.width := by
  obtain ⟨hvalid, -⟩ := h
  simp only [Config.valid, Bool.and_eq_true, decide_eq_true_eq] at hvalid
  omega

/-- A field that names no register reads as `0^W`, which has `W` trits too. -/
theorem State.wf.length_reg (h : s.wf) (f : Int) : (s.reg f).trits.length = s.cfg.width := by
  obtain ⟨-, -, regsWidth, -⟩ := h
  rw [State.reg, List.getD_eq_getElem?_getD]
  cases hf : s.regs[f.toNat]? with
  | none => exact Word.length_zero s.cfg.width
  | some r => exact regsWidth r (List.mem_of_getElem? hf)

theorem State.wf.length_memRead (h : s.wf) (a : Nat) : (s.memRead a).trits.length = s.cfg.width := by
  obtain ⟨-, -, -, -, memoryWf, -⟩ := h
  exact Memory.read_length memoryWf a

/-- An advance that does not overflow leaves a PC of `W` trits, since the PC's value is at least `-MAXPOS(W)`. -/
theorem State.wf.length_following (h : s.wf) (hpc : PcAdvances s) :
    s.following.trits.length = s.cfg.width := by
  obtain ⟨-, -, -, pcWidth, -⟩ := h
  have bound := Trits.natAbs_int_le_maxPos s.pc.trits
  rw [pcWidth] at bound
  refine Word.length_ofInt ?_
  simp only [PcAdvances, Word.int] at hpc ⊢
  omega

end Sys2Proof.Machine
end

section
/-! SUPPORT. What an instruction with a destination register can do: the request it makes, and the state it leaves. -/

namespace Sys2Proof.Machine

/-- Everything the request of an instruction with destination `d` can be: a word for `x[d]`, of `W` trits where the
machine meets the invariant, or the fault `ADDRESS` or `OVERFLOW`. -/
abbrev IsRegisterRequest (s : State) (d : Int) (q : Request) : Prop :=
  (∃ v, q = .ok (Writes.toReg d v) ∧ (s.wf → v.trits.length = s.cfg.width)) ∨
    q = .error .address ∨ q = .error .overflow

theorem adderRequest_isRegisterRequest {s : State} (d : Int) {x y : Word}
    (hx : s.wf → x.trits.length = s.cfg.width) (hy : s.wf → y.trits.length = s.cfg.width) :
    IsRegisterRequest s d (adderRequest d (addw x y .zero)) := by
  rcases adderRequest_cases d (addw x y .zero) with e | e
  · exact .inr (.inr e)
  · exact .inl ⟨_, e, fun hs => by rw [length_addw, hx hs, hy hs, min_self]⟩

theorem requestOf_isRegisterRequest (s : State) {i : Instr} {d : Int} (h : destination i = some d) :
    IsRegisterRequest s d (requestOf s i) := by
  cases i with
  | halt => cases h
  | store a k => cases h
  | jmp k => cases h
  | js a t kb => cases h
  | loadi a k =>
    cases h
    rcases loadiRequest_cases s d k with ⟨hk, e⟩ | ⟨-, e⟩
    · exact .inl ⟨_, e, fun _ => Word.length_ofInt hk⟩
    · exact .inr (.inr e)
  | loadm a k =>
    cases h
    rcases loadmRequest_cases s d k with ⟨-, e⟩ | ⟨-, e⟩
    · exact .inl ⟨_, e, fun hs => hs.length_memRead _⟩
    · exact .inr (.inl e)
  | move a b =>
    cases h
    exact .inl ⟨_, rfl, fun hs => hs.length_reg b⟩
  | add a b c =>
    cases h
    exact adderRequest_isRegisterRequest d (fun hs => hs.length_reg b) fun hs => hs.length_reg c
  | sub a b c =>
    cases h
    exact adderRequest_isRegisterRequest d (fun hs => hs.length_reg b) fun hs => (length_negw _).trans (hs.length_reg c)
  | mul a b c =>
    cases h
    rcases multiplierRequest_cases d (mulw (s.reg b) (s.reg c)) with e | e
    · exact .inr (.inr e)
    · exact .inl ⟨_, e, fun hs => (length_mulw_lo _ _).trans (hs.length_reg b)⟩
  | neg a b =>
    cases h
    exact .inl ⟨_, rfl, fun hs => (length_negw _).trans (hs.length_reg b)⟩
  | and a b c =>
    cases h
    exact .inl ⟨_, rfl, fun hs => by rw [length_andw, hs.length_reg, hs.length_reg, min_self]⟩
  | or a b c =>
    cases h
    exact .inl ⟨_, rfl, fun hs => by rw [length_orw, hs.length_reg, hs.length_reg, min_self]⟩
  | sgn a b =>
    cases h
    exact .inl ⟨_, rfl, fun hs => Word.length_sext _ _ (Nat.le_trans (by simp) hs.nine_le_width)⟩

/-- Everything the advance can do. -/
theorem advance_cases (s : State) :
    (PcAdvances s ∧ advance s = .ok s.following) ∨ (¬ PcAdvances s ∧ advance s = .error .overflow) := by
  by_cases h : PcAdvances s
  · exact .inl ⟨h, advance_ok h⟩
  · exact .inr ⟨h, advance_overflow h⟩

/-- Everything an instruction with destination `d` can leave: a fault taken, or the machine with `x[d]` and the PC
written (R182, R190). -/
theorem exec_cases_of_destination {s t : State} {i : Instr} {d : Int} (hd : destination i = some d)
    (he : exec i s = .next t) :
    t = takeFault s .address ∨ t = takeFault s .overflow ∨ ∃ v p, t = (s.setReg d.toNat v).setPc p := by
  have notHalt : i ≠ .halt := by rintro rfl; cases hd
  rw [exec_eq_withRegisters s notHalt] at he
  rcases withRegisters_cases s i.registerFields (requestOf s i) with ⟨-, e⟩ | ⟨-, e⟩
  · cases e.symm.trans he
    exact .inl rfl
  · rw [e] at he
    rcases requestOf_isRegisterRequest s hd with ⟨v, hq, -⟩ | hq | hq
    · rcases advance_cases s with ⟨-, hpc⟩ | ⟨-, hpc⟩
      · rw [hq, finish_ok ((nextPc_toReg s d v).trans hpc)] at he
        cases he
        exact .inr (.inr ⟨v, _, commit_toReg ..⟩)
      · rw [hq, finish_pcFault ((nextPc_toReg s d v).trans hpc)] at he
        cases he
        exact .inr (.inl rfl)
    · rw [hq, finish_error] at he
      cases he
      exact .inl rfl
    · rw [hq, finish_error] at he
      cases he
      exact .inr (.inl rfl)

end Sys2Proof.Machine
end

section
/-! SUPPORT. Every state operation of a cycle keeps the machine invariant, and with them every step (R20, R21, R25,
R32, R50, R180). -/

namespace Sys2Proof.Machine

variable {s : State}

theorem State.wf.setReg (h : s.wf) (i : Nat) {v : Word} (hv : v.trits.length = s.cfg.width) :
    (s.setReg i v).wf := by
  obtain ⟨hvalid, regsLength, regsWidth, pcWidth, memoryWf, faultIff⟩ := h
  refine ⟨hvalid, by simpa using regsLength, fun r hr => ?_, pcWidth, memoryWf, faultIff⟩
  rcases List.mem_or_eq_of_mem_set hr with hr | rfl
  · exact regsWidth r hr
  · exact hv

theorem State.wf.setPc (h : s.wf) {v : Word} (hv : v.trits.length = s.cfg.width) : (s.setPc v).wf := by
  obtain ⟨hvalid, regsLength, regsWidth, -, memoryWf, faultIff⟩ := h
  exact ⟨hvalid, regsLength, regsWidth, hv, memoryWf, faultIff⟩

theorem State.wf.memWrite (h : s.wf) {a : Nat} {v : Word} (ha : a < s.cfg.memWords)
    (hv : v.trits.length = s.cfg.width) : (s.memWrite a v).wf := by
  obtain ⟨hvalid, regsLength, regsWidth, pcWidth, memoryWf, faultIff⟩ := h
  exact ⟨hvalid, regsLength, regsWidth, pcWidth, Memory.write_wf memoryWf ha hv, faultIff⟩

theorem State.wf.setRunState (h : s.wf) (hs : s.runState ≠ .faulted) {r : RunState} (hr : r ≠ .faulted) :
    (s.setRunState r).wf := by
  obtain ⟨hvalid, regsLength, regsWidth, pcWidth, memoryWf, faultIff⟩ := h
  exact ⟨hvalid, regsLength, regsWidth, pcWidth, memoryWf, iff_of_true (faultIff.2 hs) hr⟩

theorem FaultCause.toCode_ne_none (r : FaultCause) : r.toCode ≠ .none := by cases r <;> decide

/-- Taking a fault sets `RUNSTATE` and `FAULT` together (R32, R190). -/
theorem State.wf.takeFault (h : s.wf) (r : FaultCause) : (takeFault s r).wf := by
  obtain ⟨hvalid, regsLength, regsWidth, pcWidth, memoryWf, -⟩ := h
  exact ⟨hvalid, regsLength, regsWidth, pcWidth, memoryWf, iff_of_false r.toCode_ne_none (by simp)⟩

/-- Every word that a request writes has `W` trits, and every address it writes is below `M`. -/
structure Writes.FitIn (s : State) (w : Writes) : Prop where
  reg : ∀ d v, w.reg = some (d, v) → v.trits.length = s.cfg.width
  mem : ∀ a v, w.mem = some (a, v) → a < s.cfg.memWords ∧ v.trits.length = s.cfg.width
  next : ∀ p, w.next = some p → p.trits.length = s.cfg.width

theorem Writes.toReg_fitIn (d : Int) {v : Word} (hv : v.trits.length = s.cfg.width) :
    (Writes.toReg d v).FitIn s :=
  ⟨by rintro _ _ ⟨⟩; exact hv, nofun, nofun⟩

theorem Writes.toMem_fitIn {a : Nat} {v : Word} (ha : a < s.cfg.memWords) (hv : v.trits.length = s.cfg.width) :
    (Writes.toMem a v).FitIn s :=
  ⟨nofun, by rintro _ _ ⟨⟩; exact ⟨ha, hv⟩, nofun⟩

theorem Writes.toPc_fitIn {p : Word} (hp : p.trits.length = s.cfg.width) : (Writes.toPc p).FitIn s :=
  ⟨nofun, nofun, by rintro _ ⟨⟩; exact hp⟩

theorem Writes.nothing_fitIn : Writes.nothing.FitIn s := ⟨nofun, nofun, nofun⟩

theorem jumpRequest_fitIn {k : Int} {w : Writes} (hq : jumpRequest s k = .ok w) : w.FitIn s := by
  rcases jumpRequest_cases s k with ⟨hk, e⟩ | ⟨-, e⟩
  · cases e.symm.trans hq
    exact Writes.toPc_fitIn (Word.length_ofInt hk)
  · cases e.symm.trans hq

/-- A machine that meets the invariant gets only requests that fit in it. -/
theorem requestOf_fitIn (h : s.wf) {i : Instr} {w : Writes} (hq : requestOf s i = .ok w) : w.FitIn s := by
  cases hd : destination i with
  | some d =>
    rcases requestOf_isRegisterRequest s hd with ⟨v, e, hv⟩ | e | e
    · cases e.symm.trans hq
      exact Writes.toReg_fitIn d (hv h)
    · cases e.symm.trans hq
    · cases e.symm.trans hq
  | none =>
    cases i with
    | halt =>
      cases hq
      exact Writes.nothing_fitIn
    | store a k =>
      rcases storeRequest_cases s a k with ⟨hk, e⟩ | ⟨-, e⟩
      · cases e.symm.trans hq
        exact Writes.toMem_fitIn (by omega) (h.length_reg a)
      · cases e.symm.trans hq
    | jmp k => exact jumpRequest_fitIn hq
    | js a t kb =>
      rcases jsRequest_cases s a t kb with e | e
      · exact jumpRequest_fitIn (e.symm.trans hq)
      · cases e.symm.trans hq
        exact Writes.nothing_fitIn
    | _ => cases hd

theorem nextPc_length (h : s.wf) {w : Writes} (hw : w.FitIn s) {p : Word} (hp : nextPc s w = .ok p) :
    p.trits.length = s.cfg.width := by
  cases hn : w.next with
  | some target =>
    rw [nextPc, hn] at hp
    cases hp
    exact hw.next _ hn
  | none =>
    rw [nextPc, hn] at hp
    rcases advance_cases s with ⟨hpc, e⟩ | ⟨-, e⟩
    · cases e.symm.trans hp
      exact h.length_following hpc
    · cases e.symm.trans hp

@[simp] theorem commitReg_cfg (s : State) (q : Option (Nat × Word)) : (commitReg s q).cfg = s.cfg := by
  cases q <;> rfl

@[simp] theorem commitMem_cfg (s : State) (q : Option (Nat × Word)) : (commitMem s q).cfg = s.cfg := by
  cases q <;> rfl

@[simp] theorem commit_cfg (s : State) (w : Writes) (p : Word) : (commit s w p).cfg = s.cfg := by
  simp [commit]

theorem State.wf.commitReg (h : s.wf) {w : Writes} (hw : w.FitIn s) : (commitReg s w.reg).wf := by
  cases hr : w.reg with
  | none => exact h
  | some q => exact h.setReg q.1 (hw.reg q.1 q.2 hr)

theorem State.wf.commit (h : s.wf) {w : Writes} (hw : w.FitIn s) {p : Word}
    (hp : p.trits.length = s.cfg.width) : (commit s w p).wf := by
  have regs := h.commitReg hw
  have regsAndMem : (commitMem (Machine.commitReg s w.reg) w.mem).wf := by
    cases hm : w.mem with
    | none => exact regs
    | some q =>
      obtain ⟨ha, hv⟩ := hw.mem q.1 q.2 hm
      exact regs.memWrite (by simpa using ha) (by simpa using hv)
  exact regsAndMem.setPc (by simpa using hp)

/-- The end of a cycle keeps the invariant and the parameters, when the request fits in the machine. -/
theorem finish_keeps_wf {t : State} (h : s.wf) {q : Request} (hw : ∀ w, q = .ok w → w.FitIn s)
    (hf : finish s q = .next t) : t.wf ∧ t.cfg = s.cfg := by
  rcases finish_cases s q with ⟨r, -, e⟩ | ⟨w, r, -, -, e⟩ | ⟨w, p, hq, hp, e⟩
  · cases e.symm.trans hf
    exact ⟨h.takeFault r, rfl⟩
  · cases e.symm.trans hf
    exact ⟨h.takeFault r, rfl⟩
  · cases e.symm.trans hf
    exact ⟨h.commit (hw w hq) (nextPc_length h (hw w hq) hp), commit_cfg s w p⟩

/-- Every instruction keeps the invariant and the parameters. -/
theorem exec_keeps_wf {t : State} (h : s.wf) (hs : s.runState ≠ .faulted) {i : Instr}
    (he : exec i s = .next t) : t.wf ∧ t.cfg = s.cfg := by
  by_cases hi : i = .halt
  · subst hi
    cases (exec_halt s).symm.trans he
    exact ⟨h.setRunState hs (by decide), rfl⟩
  · rw [exec_eq_withRegisters s hi] at he
    rcases withRegisters_cases s i.registerFields (requestOf s i) with ⟨-, e⟩ | ⟨-, e⟩
    · cases e.symm.trans he
      exact ⟨h.takeFault _, rfl⟩
    · exact finish_keeps_wf h (fun w => requestOf_fitIn h) (e.symm.trans he)

/-- The machine in which a live machine runs its cycle meets the invariant (R185). -/
theorem State.wf.running_of_live (h : s.wf) (hl : s.live = true) : (s.setRunState .running).wf := by
  refine h.setRunState (fun hf => ?_) (by decide)
  simp [State.live, hf] at hl

/-- Settles O27: the cases of a step, each of which keeps the invariant by the lemma about its last operation. -/
theorem everyStepKeepsTheInvariant : Obligations.EveryStepKeepsTheInvariant := by
  intro s t h ht
  rcases step_cases s with ⟨-, e⟩ | ⟨-, e⟩ | ⟨hl, r, -, e⟩ | ⟨hl, i, -, e⟩
  · cases e.symm.trans ht
  · cases e.symm.trans ht
    exact ⟨h, rfl⟩
  · cases e.symm.trans ht
    exact ⟨(h.running_of_live hl).takeFault r, rfl⟩
  · obtain ⟨keepsWf, keepsCfg⟩ := exec_keeps_wf (h.running_of_live hl) (by simp) (e.symm.trans ht)
    exact ⟨keepsWf, keepsCfg⟩

end Sys2Proof.Machine
end

section
/-! SUPPORT. The register check's fault (R24), the frame of the register instructions (R22, R182), and the reset state
(R36, R332). -/

namespace Sys2Proof.Machine

/-- Settles O34: HALT lists no field, and every other instruction starts with the check of its fields. -/
theorem invalidRegisterFieldFaults : Obligations.InvalidRegisterFieldFaults := by
  rintro s i ⟨f, hf, outside⟩
  have notHalt : i ≠ .halt := by rintro rfl; cases hf
  have notValid : ¬ FieldsValid s i.registerFields := fun valid => by
    have := valid f hf
    omega
  rw [exec_eq_withRegisters s notHalt, withRegisters_fault notValid]

/-- Settles O53: a register instruction takes a fault or writes its destination and the PC. -/
theorem frameOfRegisterInstructions : Obligations.FrameOfRegisterInstructions := by
  intro i d s t hd he
  rcases exec_cases_of_destination hd he with rfl | rfl | ⟨v, p, rfl⟩
  · exact ⟨rfl, rfl, fun _ _ => rfl, fun _ => rfl, .inr (.inl rfl)⟩
  · exact ⟨rfl, rfl, fun _ _ => rfl, fun _ => rfl, .inr (.inr rfl)⟩
  · exact ⟨rfl, List.length_set, fun _ hn => List.getElem?_set_ne hn.symm, fun _ => rfl, .inl ⟨rfl, rfl⟩⟩

/-- An image of `0^W` words is the memory that lists no pair. -/
theorem Memory.ofImage_zeros (width n : Nat) :
    ∀ a, Memory.ofImage width a (List.replicate n (Trits.zeros width)) = [] := by
  induction n with
  | zero => intro a; rfl
  | succ n ih =>
    intro a
    rw [List.replicate_succ, Memory.ofImage, if_pos rfl]
    exact ih (a + 1)

/-- The parameters of the examples, with the image of `0^9` words, are in the ranges of R7. -/
theorem reset_constructionInRange : ConstructionInRange 9 5 27 (List.replicate 27 (Trits.zeros 9)) := by
  refine ⟨by decide, by decide, by decide, by decide, by decide, List.length_replicate, fun t ht => ?_⟩
  rw [List.eq_of_mem_replicate ht, Trits.length_zeros]

theorem construct_reset : construct 9 5 27 (List.replicate 27 (Trits.zeros 9)) = .ok State.reset := by
  rw [construct_ok reset_constructionInRange, Memory.ofImage_zeros]
  rfl

theorem State.reset_wf : State.reset.wf := by
  have constructedWf := State.constructed_ofImage_wf reset_constructionInRange
  rwa [Memory.ofImage_zeros] at constructedWf

/-- Settles O26: reset is a construction within the ranges, so it meets the invariant as every one does. -/
theorem resetMeetsTheInvariant : Obligations.ResetMeetsTheInvariant :=
  ⟨State.reset_wf, rfl, rfl, rfl, rfl, rfl, construct_reset⟩

end Sys2Proof.Machine
end

section
/-! SUPPORT. The one memory write that an instruction can make is a STORE's, to its own address (R52, R182, R216); what
a read and a fetch see after it (R54, R62); and the step of one machine instance among several (R65, R198). -/

namespace Sys2Proof.Machine

variable {s t : State}

theorem jumpRequest_mem {k : Int} {w : Writes} (hq : jumpRequest s k = .ok w) : w.mem = none := by
  rcases jumpRequest_cases s k with ⟨-, e⟩ | ⟨-, e⟩
  · cases e.symm.trans hq
    rfl
  · cases e.symm.trans hq

/-- A request writes no memory, or it is a STORE's and writes the word at its address field (R216, R222). -/
theorem requestOf_mem {i : Instr} {w : Writes} (hq : requestOf s i = .ok w) :
    w.mem = none ∨ ∃ a k, i = .store a k ∧ AddressInRange s k ∧ w.mem = some (k.toNat, s.reg a) := by
  cases hd : destination i with
  | some d =>
    rcases requestOf_isRegisterRequest s hd with ⟨v, e, -⟩ | e | e
    · cases e.symm.trans hq
      exact .inl rfl
    · cases e.symm.trans hq
    · cases e.symm.trans hq
  | none =>
    cases i with
    | halt =>
      cases hq
      exact .inl rfl
    | store a k =>
      rcases storeRequest_cases s a k with ⟨hk, e⟩ | ⟨-, e⟩
      · cases e.symm.trans hq
        exact .inr ⟨a, k, rfl, hk, rfl⟩
      · cases e.symm.trans hq
    | jmp k => exact .inl (jumpRequest_mem hq)
    | js a t kb =>
      rcases jsRequest_cases s a t kb with e | e
      · exact .inl (jumpRequest_mem (e.symm.trans hq))
      · cases e.symm.trans hq
        exact .inl rfl
    | _ => cases hd

/-- A write leaves every other address alone. -/
theorem State.memWrite_memRead_other (s : State) {a b : Nat} (v : Word) (h : b ≠ a) :
    (s.memWrite a v).memRead b = s.memRead b :=
  Memory.read_write_other s.cfg.width s.mem v h

/-- A read after a write to the same address of a machine that meets the invariant gives the word written (R54). -/
theorem State.wf.memWrite_memRead_same (h : s.wf) (a : Nat) (v : Word) : (s.memWrite a v).memRead a = v := by
  obtain ⟨-, -, -, -, ⟨rising, -⟩, -⟩ := h
  exact Memory.read_write_same s.cfg.width a v rising

@[simp] theorem commitReg_memRead (s : State) (q : Option (Nat × Word)) (b : Nat) :
    (commitReg s q).memRead b = s.memRead b := by
  cases q <;> rfl

/-- A commit changes memory at most at the address of its memory request (R182). -/
theorem commit_memRead_other {w : Writes} {b : Nat} (h : ∀ v, w.mem ≠ some (b, v)) (p : Word) :
    (commit s w p).memRead b = s.memRead b := by
  rw [commit, State.setPc_memRead]
  cases hm : w.mem with
  | none => exact commitReg_memRead s w.reg b
  | some q =>
    obtain ⟨a, v⟩ := q
    have other : b ≠ a := by
      rintro rfl
      exact h v hm
    exact (State.memWrite_memRead_other _ v other).trans (commitReg_memRead s w.reg b)

/-- The end of a cycle that changes the word at `b` commits a memory request for `b`. -/
theorem mem_of_finish_changes {q : Request} {b : Nat} (hf : finish s q = .next t)
    (changed : t.memRead b ≠ s.memRead b) : ∃ w v, q = .ok w ∧ w.mem = some (b, v) := by
  rcases finish_cases s q with ⟨r, -, e⟩ | ⟨w, r, -, -, e⟩ | ⟨w, p, hq, -, e⟩
  · cases e.symm.trans hf
    exact absurd rfl changed
  · cases e.symm.trans hf
    exact absurd rfl changed
  · cases e.symm.trans hf
    by_contra noRequest
    exact changed (commit_memRead_other (fun v hv => noRequest ⟨w, v, hq, hv⟩) p)

/-- An instruction that changes the word at `b` is a STORE whose address field is `b` (R52, R216). -/
theorem store_of_exec_changes {i : Instr} {b : Nat} (he : exec i s = .next t)
    (changed : t.memRead b ≠ s.memRead b) : ∃ a k, i = .store a k ∧ k = (b : Int) := by
  by_cases hi : i = .halt
  · subst hi
    cases (exec_halt s).symm.trans he
    exact absurd rfl changed
  · rw [exec_eq_withRegisters s hi] at he
    rcases withRegisters_cases s i.registerFields (requestOf s i) with ⟨-, e⟩ | ⟨-, e⟩
    · cases e.symm.trans he
      exact absurd rfl changed
    · obtain ⟨w, v, hq, hm⟩ := mem_of_finish_changes (e.symm.trans he) changed
      rcases requestOf_mem hq with noWrite | ⟨a, k, hstore, ⟨hk, -⟩, write⟩
      · cases noWrite.symm.trans hm
      · cases write.symm.trans hm
        exact ⟨a, k, hstore, (Int.toNat_of_nonneg hk).symm⟩

/-- Settles O35: of the cases of a step only a run instruction can change memory, and it is then a STORE. -/
theorem onlyStoreWritesMemory : Obligations.OnlyStoreWritesMemory := by
  intro s t ht b changed
  rcases step_cases s with ⟨-, e⟩ | ⟨-, e⟩ | ⟨-, r, -, e⟩ | ⟨-, i, hi, e⟩
  · cases e.symm.trans ht
  · cases e.symm.trans ht
    exact absurd rfl changed
  · cases e.symm.trans ht
    exact absurd rfl changed
  · obtain ⟨a, k, rfl, hk⟩ := store_of_exec_changes (e.symm.trans ht) changed
    exact ⟨a, k, hi, hk⟩

/-- A STORE without a fault commits its word and the advanced PC (R216). -/
theorem exec_store_ok {a k : Int} (valid : FieldsValid s [a]) (inRange : AddressInRange s k) (advances : PcAdvances s) :
    exec (.store a k) s = .next ((s.memWrite k.toNat (s.reg a)).setPc s.following) := by
  have request : storeRequest s a k = .ok (Writes.toMem k.toNat (s.reg a)) := by
    rw [storeRequest, effectiveAddress_ok inRange]
  show withRegisters s [a] (storeRequest s a k) = _
  rw [withRegisters_valid valid, request, finish_ok ((nextPc_toMem ..).trans (advance_ok advances)), commit_toMem]

/-- Settles O37: the state that the STORE commits reads the stored word back, so a fetch there decodes it. -/
theorem storedWordIsSeenByTheNextFetch : Obligations.StoredWordIsSeenByTheNextFetch := by
  intro s t a k hs valid inRange advances he
  cases (exec_store_ok valid inRange advances).symm.trans he
  have stored := hs.memWrite_memRead_same k.toNat (s.reg a)
  refine ⟨stored, ?_⟩
  rintro p rfl
  rcases fetchDecode_cases (((s.memWrite p.int.toNat (s.reg a)).setPc s.following).setPc p) with
    ⟨outside, -⟩ | ⟨-, why, hd, e⟩ | ⟨-, i, hd, e⟩
  · exact absurd inRange outside
  · have hd' : decode s.cfg.width (s.reg a) = .invalid why := stored ▸ hd
    rw [e, hd']
  · have hd' : decode s.cfg.width (s.reg a) = .instr i := stored ▸ hd
    rw [e, hd']

/-- Stepping an instance that exists replaces that one machine in the list. -/
theorem stepInstance_of_some {machines : List State} {i : Nat} (h : machines[i]? = some s) :
    stepInstance machines i = (some (stepCall s).1, machines.set i (stepCall s).2) := by
  rw [stepInstance, h]

/-- Stepping an instance that does not exist changes no machine. -/
theorem stepInstance_of_none {machines : List State} {i : Nat} (h : machines[i]? = none) :
    stepInstance machines i = (none, machines) := by
  rw [stepInstance, h]

/-- Settles O38: the step of instance `i` is a `List.set` at `i`, or nothing when there is no such instance. -/
theorem instancesShareNothing : Obligations.InstancesShareNothing := by
  intro machines i j hij
  cases h : machines[i]? with
  | none =>
    rw [stepInstance_of_none h]
    exact ⟨rfl, rfl, nofun⟩
  | some s =>
    rw [stepInstance_of_some h]
    refine ⟨List.getElem?_set_ne hij, List.length_set, ?_⟩
    rintro _ ⟨⟩
    obtain ⟨hi, -⟩ := List.getElem?_eq_some_iff.1 h
    exact List.getElem?_set_self hi

end Sys2Proof.Machine
end

section
/-! SUPPORT. The conversions of integers (R150 to R156): `Int` takes `to_trits` back, and at a fixed length the two
are inverse. -/

namespace Sys2Proof

theorem int_canonLoop (fuel : Nat) : ∀ v : Int, v.natAbs ≤ fuel → Trits.int (canonLoop fuel v) = v := by
  induction fuel with
  | zero => intro v hv; rw [canonLoop, Trits.int_nil]; omega
  | succ fuel ih =>
    intro v hv
    rw [canonLoop]
    split
    · rw [Trits.int_nil]; omega
    · obtain ⟨low, high, quotient⟩ := lowDigit_spec v
      rw [Trits.int_cons, Trit.toInt_ofSign ⟨low, high⟩, ih _ (by omega)]
      omega

@[simp] theorem int_canon (v : Int) : Trits.int (canon v) = v := int_canonLoop v.natAbs v le_rfl

@[simp] theorem int_toTrits (v : Int) (n : Nat) : Trits.int (toTrits v n) = v := by
  rw [toTrits, Trits.sext, Trits.int_append, Trits.int_replicate_zero, int_canon]
  omega

/-- A value that fits is written in exactly as many trits (R155, R162). -/
theorem length_toTrits {v : Int} {n : Nat} (h : fits v n = true) : (toTrits v n).length = n :=
  Word.length_ofInt (of_decide_eq_true h)

/-- At a fixed length no two sequences have the same value (R152). -/
theorem Trits.int_injective : ∀ {t u : Trits}, t.length = u.length → Trits.int t = Trits.int u → t = u
  | [], [], _, _ => rfl
  | x :: t, y :: u, hl, hv => by
    simp only [Trits.int_cons] at hv
    have hx := x.toInt_bounds
    have hy := y.toInt_bounds
    have head : x = y := Trit.toInt_injective (by omega)
    have tail : t = u := Trits.int_injective (Nat.succ.inj hl) (by omega)
    rw [head, tail]

theorem fits_int {t : Trits} {n : Nat} (h : t.length = n) : fits (Trits.int t) n = true :=
  decide_eq_true (h ▸ t.natAbs_int_le_maxPos)

/-- A sequence is the conversion of its value at its own length (R156). -/
theorem toTrits_int {t : Trits} {n : Nat} (h : t.length = n) : toTrits (Trits.int t) n = t :=
  Trits.int_injective ((length_toTrits (fits_int h)).trans h.symm) (int_toTrits ..)

end Sys2Proof
end

section
/-! SUPPORT. The fields of a word (R73, R74): joined from the most significant one down they are the word, so that
the parts of a join are the fields. A must-be-zero field (R79) is the low trits of its format, or ZA. -/

namespace Sys2Proof

theorem Trits.concat_eq (a b : Trits) : Trits.concat a b = b ++ a := rfl

theorem Trits.concat_inj {a b c d : Trits} (h : Trits.concat a b = Trits.concat c d) (hl : b.length = d.length) :
    a = c ∧ b = d := (List.append_inj h hl).symm

theorem Trits.slice_eq_take (t : Trits) {hi n : Nat} (h : hi + 1 = n) : Trits.slice t hi 0 = t.take n :=
  congrArg t.take h

theorem Trits.length_slice {t : Trits} {hi lo n : Nat} (h : hi < t.length) (hn : hi + 1 - lo = n) :
    (Trits.slice t hi lo).length = n := by
  rw [Trits.slice, List.length_take, List.length_drop]
  omega

/-- A slice joined above the trits below it is the trits up to its top. -/
theorem Trits.concat_slice_take (t : Trits) {hi lo n : Nat} (h : hi + 1 = n) (hn : lo ≤ n) :
    Trits.concat (Trits.slice t hi lo) (t.take lo) = t.take n := by
  rw [Trits.concat_eq, Trits.slice, ← List.take_add, h, Nat.add_sub_cancel' hn]

section
variable {width : Nat} {w : Word}

theorem concat_fieldOp (hW : 9 ≤ width) (hw : w.trits.length = width) :
    Trits.concat (fieldOp width w) (w.trits.take (width - 3)) = w.trits := by
  rw [fieldOp, Trits.concat_slice_take (n := width) _ (by omega) (by omega), List.take_of_length_le hw.le]

theorem concat_fieldA (hW : 9 ≤ width) :
    Trits.concat (fieldA width w) (w.trits.take (width - 5)) = w.trits.take (width - 3) :=
  Trits.concat_slice_take _ (by omega) (by omega)

theorem concat_fieldB (hW : 9 ≤ width) :
    Trits.concat (fieldB width w) (w.trits.take (width - 7)) = w.trits.take (width - 5) :=
  Trits.concat_slice_take _ (by omega) (by omega)

theorem concat_fieldC (hW : 9 ≤ width) :
    Trits.concat (fieldC width w) (w.trits.take (width - 9)) = w.trits.take (width - 7) :=
  Trits.concat_slice_take _ (by omega) (by omega)

theorem concat_fieldS (hW : 9 ≤ width) (hw : w.trits.length = width) :
    Trits.concat [fieldS width w] (w.trits.take (width - 6)) = w.trits.take (width - 5) := by
  have split : width - 5 = width - 6 + 1 := by omega
  have inside : width - 6 < w.trits.length := by omega
  rw [Trits.concat_eq, split, List.take_succ_eq_append_getElem inside, fieldS, List.getD_eq_getElem _ _ inside]

theorem fieldK_eq_take (hW : 9 ≤ width) : fieldK width w = w.trits.take (width - 5) :=
  Trits.slice_eq_take _ (by omega)

theorem fieldKB_eq_take (hW : 9 ≤ width) : fieldKB width w = w.trits.take (width - 6) :=
  Trits.slice_eq_take _ (by omega)

end

theorem isZero_take_iff {w : Word} {n : Nat} (hn : n ≤ w.trits.length) :
    Trits.isZero (w.trits.take n) = true ↔ w.trits.take n = Trits.zeros n := by
  rw [Trits.isZero_iff, List.length_take_of_le hn]

section
variable {width : Nat} {w : Word} (hW : 9 ≤ width) (hw : w.trits.length = width)
include hW hw

theorem length_fieldOp : (fieldOp width w).length = 3 :=
  Trits.length_slice (by omega) (by omega)

theorem length_fieldA : (fieldA width w).length = 2 :=
  Trits.length_slice (by omega) (by omega)

theorem length_fieldB : (fieldB width w).length = 2 :=
  Trits.length_slice (by omega) (by omega)

theorem length_fieldC : (fieldC width w).length = 2 :=
  Trits.length_slice (by omega) (by omega)

theorem length_fieldK : (fieldK width w).length = width - 5 :=
  Trits.length_slice (by omega) (by omega)

theorem length_fieldKB :
    (fieldKB width w).length = width - 6 :=
  Trits.length_slice (by omega) (by omega)

theorem mustBeZero_n_iff :
    mustBeZero width w .n = true ↔ w.trits.take (width - 3) = Trits.zeros (width - 3) := by
  rw [mustBeZero, Trits.slice_eq_take (n := width - 3) _ (by omega), isZero_take_iff (by omega)]

/-- At `W = 9` format R has no field Z, and no trits stand below C. -/
theorem mustBeZero_r_iff :
    mustBeZero width w .r = true ↔ w.trits.take (width - 9) = Trits.zeros (width - 9) := by
  by_cases h9 : width = 9
  · subst h9
    exact iff_of_true rfl rfl
  · rw [mustBeZero, decide_eq_false h9, Bool.false_or, Trits.slice_eq_take (n := width - 9) _ (by omega),
      isZero_take_iff (by omega)]

theorem mustBeZero_r2_iff :
    mustBeZero width w .r2 = true ↔ w.trits.take (width - 7) = Trits.zeros (width - 7) := by
  rw [mustBeZero, Trits.slice_eq_take (n := width - 7) _ (by omega), isZero_take_iff (by omega)]

theorem mustBeZero_j_iff :
    mustBeZero width w .j = true ↔ fieldA width w = Trits.zeros 2 := by
  rw [mustBeZero, Trits.isZero_iff, length_fieldA hW hw]

end

end Sys2Proof
end

section
/-! SUPPORT. What the decoder answers, by the opcode field and the must-be-zero field (R78 to R80). -/

namespace Sys2Proof

@[simp] theorem Opcode.ofCode_code (op : Opcode) : Opcode.ofCode op.code = some op := by
  cases op <;> rfl

theorem Opcode.code_of_ofCode {v : Int} {op : Opcode} (h : Opcode.ofCode v = some op) : op.code = v := by
  simpa using List.find?_some h

theorem Opcode.fits_code (op : Opcode) : fits op.code 3 = true := by
  cases op <;> rfl

/-- Of the values of three trits, the 13 negative ones are reserved (R78, R80). -/
theorem Opcode.ofCode_eq_none_iff {v : Int} (h : fits v 3 = true) : Opcode.ofCode v = none ↔ v < 0 := by
  have bound : v.natAbs ≤ 13 := of_decide_eq_true h
  have low : -13 ≤ v := by omega
  have high : v ≤ 13 := by omega
  interval_cases v <;> decide

theorem decode_of_opcode {width : Nat} {w : Word} {op : Opcode}
    (hop : Trits.int (fieldOp width w) = op.code) (hz : mustBeZero width w op.format = true) :
    decode width w = .instr (assembleFields width w op) := by
  rw [decode, hop, Opcode.ofCode_code]
  exact if_pos hz

/-- Everything that decoding can do (R79, R80). -/
theorem decode_cases (width : Nat) (w : Word) :
    (Opcode.ofCode (Trits.int (fieldOp width w)) = none ∧ decode width w = .invalid .reservedOpcode) ∨
    ∃ op : Opcode, Trits.int (fieldOp width w) = op.code ∧
      ((mustBeZero width w op.format = true ∧ decode width w = .instr (assembleFields width w op)) ∨
        (mustBeZero width w op.format = false ∧ decode width w = .invalid .nonzeroField)) := by
  cases h : Opcode.ofCode (Trits.int (fieldOp width w)) with
  | none => exact .inl ⟨rfl, by rw [decode, h]⟩
  | some op =>
    refine .inr ⟨op, (Opcode.code_of_ofCode h).symm, ?_⟩
    cases hz : mustBeZero width w op.format with
    | true => exact .inl ⟨rfl, by rw [decode, h]; exact if_pos hz⟩
    | false => exact .inr ⟨rfl, by rw [decode, h]; exact if_neg (by simp [hz])⟩

end Sys2Proof
end

section
/-! SUPPORT. The encoder and the decoder are inverse (R82), and which words are Invalid (R80). -/

namespace Sys2Proof

section
variable {width : Nat} {w : Word} {part rest : Trits}

/-- A part joined above the `W - 5` low trits, in the place of the trits below OP, is the field A. -/
theorem fieldA_of_join (hW : 9 ≤ width) (hw : w.trits.length = width)
    (h : w.trits.take (width - 3) = Trits.concat part rest) (hr : rest.length = width - 5) :
    fieldA width w = part ∧ w.trits.take (width - 5) = rest :=
  Trits.concat_inj ((concat_fieldA hW).trans h) (by rw [List.length_take]; omega)

theorem fieldB_of_join (hW : 9 ≤ width) (hw : w.trits.length = width)
    (h : w.trits.take (width - 5) = Trits.concat part rest) (hr : rest.length = width - 7) :
    fieldB width w = part ∧ w.trits.take (width - 7) = rest :=
  Trits.concat_inj ((concat_fieldB hW).trans h) (by rw [List.length_take]; omega)

theorem fieldC_of_join (hW : 9 ≤ width) (hw : w.trits.length = width)
    (h : w.trits.take (width - 7) = Trits.concat part rest) (hr : rest.length = width - 9) :
    fieldC width w = part ∧ w.trits.take (width - 9) = rest :=
  Trits.concat_inj ((concat_fieldC hW).trans h) (by rw [List.length_take]; omega)

theorem fieldS_of_join {s : Trit} (hW : 9 ≤ width) (hw : w.trits.length = width)
    (h : w.trits.take (width - 5) = Trits.concat [s] rest) (hr : rest.length = width - 6) :
    fieldS width w = s ∧ w.trits.take (width - 6) = rest := by
  obtain ⟨top, low⟩ := Trits.concat_inj ((concat_fieldS hW hw).trans h) (by rw [List.length_take]; omega)
  exact ⟨List.singleton_inj.1 top, low⟩

end

theorem length_encodeWith (op : Opcode) (rest : Trits) : (encodeWith op rest).trits.length = 3 + rest.length := by
  rw [encodeWith, Trits.length_concat, length_toTrits op.fits_code]

/-- The parts of a word made from an opcode and the trits below it. -/
theorem fields_encodeWith {width : Nat} (hW : 9 ≤ width) (op : Opcode) {rest : Trits} (hr : rest.length = width - 3) :
    (encodeWith op rest).trits.length = width ∧ fieldOp width (encodeWith op rest) = toTrits op.code 3 ∧
      (encodeWith op rest).trits.take (width - 3) = rest := by
  have hw : (encodeWith op rest).trits.length = width := by rw [length_encodeWith]; omega
  refine ⟨hw, Trits.concat_inj (concat_fieldOp hW hw) ?_⟩
  rw [List.length_take]
  omega

/-- The trits below OP in the encoding of an instruction (R74). -/
def operandTrits (width : Nat) : Instr → Trits
  | .halt => Trits.zeros (width - 3)
  | .loadi a k | .loadm a k | .store a k => Trits.concat (toTrits a 2) (toTrits k (width - 5))
  | .move a b | .neg a b | .sgn a b =>
    Trits.concat (toTrits a 2) (Trits.concat (toTrits b 2) (Trits.zeros (width - 7)))
  | .add a b c | .sub a b c | .mul a b c | .and a b c | .or a b c =>
    Trits.concat (toTrits a 2) (Trits.concat (toTrits b 2) (Trits.concat (toTrits c 2) (Trits.zeros (width - 9))))
  | .jmp k => Trits.concat (Trits.zeros 2) (toTrits k (width - 5))
  | .js a s kb => Trits.concat (toTrits a 2) (Trits.concat [s] (toTrits kb (width - 6)))

theorem encode_eq_encodeWith (width : Nat) (i : Instr) :
    encode width i = encodeWith i.opcode (operandTrits width i) := by
  cases i <;> rfl

theorem assembleFields_opcode (width : Nat) (w : Word) (op : Opcode) : (assembleFields width w op).opcode = op := by
  cases op <;> rfl

theorem length_operandTrits {width : Nat} (hW : 9 ≤ width) {i : Instr} (hi : i.wf width = true) :
    (operandTrits width i).length = width - 3 := by
  cases i with
  | halt => exact Trits.length_zeros _
  | loadi a k | loadm a k | store a k =>
    obtain ⟨ha, hk⟩ := Bool.and_eq_true_iff.1 hi
    simp only [operandTrits, Trits.length_concat, length_toTrits ha, length_toTrits hk]
    omega
  | move a b | neg a b | sgn a b =>
    obtain ⟨ha, hb⟩ := Bool.and_eq_true_iff.1 hi
    simp only [operandTrits, Trits.length_concat, length_toTrits ha, length_toTrits hb, Trits.length_zeros]
    omega
  | add a b c | sub a b c | mul a b c | and a b c | or a b c =>
    obtain ⟨hab, hc⟩ := Bool.and_eq_true_iff.1 hi
    obtain ⟨ha, hb⟩ := Bool.and_eq_true_iff.1 hab
    simp only [operandTrits, Trits.length_concat, length_toTrits ha, length_toTrits hb, length_toTrits hc,
      Trits.length_zeros]
    omega
  | jmp k =>
    simp only [operandTrits, Trits.length_concat, length_toTrits hi, Trits.length_zeros]
    omega
  | js a s kb =>
    obtain ⟨ha, hk⟩ := Bool.and_eq_true_iff.1 hi
    simp only [operandTrits, Trits.length_concat, length_toTrits ha, length_toTrits hk, List.length_singleton]
    omega

/-- The fields of a word whose trits below OP are those of an instruction that fits: they give it back. -/
theorem fields_of_operandTrits {width : Nat} {w : Word} (hW : 9 ≤ width) (hw : w.trits.length = width) {i : Instr}
    (hi : i.wf width = true) (h : w.trits.take (width - 3) = operandTrits width i) :
    mustBeZero width w i.opcode.format = true ∧ assembleFields width w i.opcode = i := by
  cases i with
  | halt => exact ⟨(mustBeZero_n_iff hW hw).2 h, rfl⟩
  | loadi a k | loadm a k | store a k =>
    obtain ⟨-, hk⟩ := Bool.and_eq_true_iff.1 hi
    obtain ⟨ea, ek⟩ := fieldA_of_join hW hw h (length_toTrits hk)
    exact ⟨rfl, by simp only [Instr.opcode, assembleFields, fieldK_eq_take hW, ea, ek, int_toTrits]⟩
  | move a b | neg a b | sgn a b =>
    obtain ⟨-, hb⟩ := Bool.and_eq_true_iff.1 hi
    obtain ⟨ea, eb⟩ := fieldA_of_join hW hw h
      (by rw [Trits.length_concat, length_toTrits hb, Trits.length_zeros]; omega)
    obtain ⟨eb, ez⟩ := fieldB_of_join hW hw eb (Trits.length_zeros _)
    exact ⟨(mustBeZero_r2_iff hW hw).2 ez, by simp only [Instr.opcode, assembleFields, ea, eb, int_toTrits]⟩
  | add a b c | sub a b c | mul a b c | and a b c | or a b c =>
    obtain ⟨hab, hc⟩ := Bool.and_eq_true_iff.1 hi
    obtain ⟨-, hb⟩ := Bool.and_eq_true_iff.1 hab
    have lowC : (Trits.concat (toTrits c 2) (Trits.zeros (width - 9))).length = width - 7 := by
      rw [Trits.length_concat, length_toTrits hc, Trits.length_zeros]
      omega
    have lowB : (Trits.concat (toTrits b 2) (Trits.concat (toTrits c 2) (Trits.zeros (width - 9)))).length
        = width - 5 := by
      rw [Trits.length_concat, length_toTrits hb, lowC]
      omega
    obtain ⟨ea, eb⟩ := fieldA_of_join hW hw h lowB
    obtain ⟨eb, ec⟩ := fieldB_of_join hW hw eb lowC
    obtain ⟨ec, ez⟩ := fieldC_of_join hW hw ec (Trits.length_zeros _)
    exact ⟨(mustBeZero_r_iff hW hw).2 ez, by simp only [Instr.opcode, assembleFields, ea, eb, ec, int_toTrits]⟩
  | jmp k =>
    obtain ⟨ea, ek⟩ := fieldA_of_join hW hw h (length_toTrits hi)
    exact ⟨(mustBeZero_j_iff hW hw).2 ea,
      by simp only [Instr.opcode, assembleFields, fieldK_eq_take hW, ek, int_toTrits]⟩
  | js a s kb =>
    obtain ⟨-, hk⟩ := Bool.and_eq_true_iff.1 hi
    obtain ⟨ea, es⟩ := fieldA_of_join hW hw h
      (by rw [Trits.length_concat, length_toTrits hk, List.length_singleton]; omega)
    obtain ⟨es, ek⟩ := fieldS_of_join hW hw es (length_toTrits hk)
    exact ⟨rfl, by simp only [Instr.opcode, assembleFields, fieldKB_eq_take hW, ea, es, ek, int_toTrits]⟩

/-- Settles O22: the opcode field and the trits below it are read back, and so each operand from its field. -/
theorem decodeOfEncodeIsTheInstruction : Obligations.DecodeOfEncodeIsTheInstruction := by
  intro width i hW hi
  rw [encode_eq_encodeWith]
  obtain ⟨hw, hop, hrest⟩ := fields_encodeWith hW i.opcode (length_operandTrits hW hi)
  obtain ⟨hz, hfields⟩ := fields_of_operandTrits hW hw hi hrest
  rw [decode_of_opcode (by rw [hop, int_toTrits]) hz, hfields]
  exact ⟨rfl, hw⟩

/-- The trits below OP are those of the instruction that the fields make, when the must-be-zero field is zero. -/
theorem operandTrits_assembleFields {width : Nat} {w : Word} (hW : 9 ≤ width) (hw : w.trits.length = width)
    {op : Opcode} (hz : mustBeZero width w op.format = true) :
    operandTrits width (assembleFields width w op) = w.trits.take (width - 3) := by
  have ea := toTrits_int (length_fieldA hW hw)
  have eb := toTrits_int (length_fieldB hW hw)
  have ec := toTrits_int (length_fieldC hW hw)
  have ek := toTrits_int (length_fieldK hW hw)
  have ekb := toTrits_int (length_fieldKB hW hw)
  cases op with
  | halt => exact ((mustBeZero_n_iff hW hw).1 hz).symm
  | loadi | loadm | store =>
    rw [assembleFields, operandTrits, ea, ek, fieldK_eq_take hW, concat_fieldA hW]
  | move | neg | sgn =>
    have low := (mustBeZero_r2_iff hW hw).1 hz
    rw [assembleFields, operandTrits, ea, eb, ← low, concat_fieldB hW, concat_fieldA hW]
  | add | sub | mul | and | or =>
    have low := (mustBeZero_r_iff hW hw).1 hz
    rw [assembleFields, operandTrits, ea, eb, ec, ← low, concat_fieldC hW, concat_fieldB hW, concat_fieldA hW]
  | jmp =>
    rw [assembleFields, operandTrits, ek, fieldK_eq_take hW, ← (mustBeZero_j_iff hW hw).1 hz, concat_fieldA hW]
  | js =>
    rw [assembleFields, operandTrits, ea, ekb, fieldKB_eq_take hW, concat_fieldS hW hw, concat_fieldA hW]

theorem encode_assembleFields {width : Nat} {w : Word} (hW : 9 ≤ width) (hw : w.trits.length = width)
    {op : Opcode} (hop : Trits.int (fieldOp width w) = op.code) (hz : mustBeZero width w op.format = true) :
    encode width (assembleFields width w op) = w := by
  have top : toTrits op.code 3 = fieldOp width w := hop ▸ toTrits_int (length_fieldOp hW hw)
  rw [encode_eq_encodeWith, assembleFields_opcode, operandTrits_assembleFields hW hw hz, encodeWith, top,
    concat_fieldOp hW hw]

/-- The value of a field fits the field. -/
theorem assembleFields_wf {width : Nat} {w : Word} (hW : 9 ≤ width) (hw : w.trits.length = width) (op : Opcode) :
    (assembleFields width w op).wf width = true := by
  have ha : registerFieldFits (Trits.int (fieldA width w)) = true := fits_int (length_fieldA hW hw)
  have hb : registerFieldFits (Trits.int (fieldB width w)) = true := fits_int (length_fieldB hW hw)
  have hc : registerFieldFits (Trits.int (fieldC width w)) = true := fits_int (length_fieldC hW hw)
  have hk : wordFieldFits width (Trits.int (fieldK width w)) = true := fits_int (length_fieldK hW hw)
  have hkb : branchFieldFits width (Trits.int (fieldKB width w)) = true := fits_int (length_fieldKB hW hw)
  cases op <;> simp only [assembleFields, Instr.wf, ha, hb, hc, hk, hkb, Bool.and_self]

/-- Settles O23: a word that decodes is made of the fields of its instruction. -/
theorem everyInstructionHasOneEncoding : Obligations.EveryInstructionHasOneEncoding := by
  intro width w i hW hw hd
  rcases decode_cases width w with ⟨-, e⟩ | ⟨op, hop, ⟨hz, e⟩ | ⟨-, e⟩⟩
  · cases e.symm.trans hd
  · cases e.symm.trans hd
    exact ⟨assembleFields_wf hW hw op, (encode_assembleFields hW hw hop hz).symm⟩
  · cases e.symm.trans hd

theorem exists_invalid_iff {width : Nat} {w : Word} (hW : 9 ≤ width) (hw : w.trits.length = width) :
    (∃ why, decode width w = .invalid why) ↔
      Trits.int (fieldOp width w) < 0 ∨
        ∃ op : Opcode, Trits.int (fieldOp width w) = op.code ∧ ¬ mustBeZero width w op.format = true := by
  have reserved := Opcode.ofCode_eq_none_iff (fits_int (length_fieldOp hW hw))
  constructor
  · rintro ⟨why, hd⟩
    rcases decode_cases width w with ⟨h, -⟩ | ⟨op, hop, ⟨-, e⟩ | ⟨hz, -⟩⟩
    · exact .inl (reserved.1 h)
    · cases e.symm.trans hd
    · exact .inr ⟨op, hop, by simp [hz]⟩
  · rintro (h | ⟨op, hop, hz⟩)
    · exact ⟨.reservedOpcode, by rw [decode, reserved.2 h]⟩
    · exact ⟨.nonzeroField, by rw [decode, hop, Opcode.ofCode_code]; exact if_neg hz⟩

theorem Opcode.exists_r2_of_mem {v : Int} (h : v ∈ [(4 : Int), 8, 13]) :
    ∃ op : Opcode, op.format = .r2 ∧ v = op.code := by
  simp only [List.mem_cons, List.not_mem_nil, or_false] at h
  rcases h with rfl | rfl | rfl
  exacts [⟨.move, rfl, rfl⟩, ⟨.neg, rfl, rfl⟩, ⟨.sgn, rfl, rfl⟩]

theorem Opcode.exists_r_of_mem {v : Int} (h : v ∈ [(5 : Int), 6, 7, 9, 10]) :
    ∃ op : Opcode, op.format = .r ∧ v = op.code := by
  simp only [List.mem_cons, List.not_mem_nil, or_false] at h
  rcases h with rfl | rfl | rfl | rfl | rfl
  exacts [⟨.add, rfl, rfl⟩, ⟨.sub, rfl, rfl⟩, ⟨.mul, rfl, rfl⟩, ⟨.and, rfl, rfl⟩, ⟨.or, rfl, rfl⟩]

/-- Settles O24: the opcodes of each format against the values that the statement lists. -/
theorem invalidWordsAreExactlyTheIllegalOnes : Obligations.InvalidWordsAreExactlyTheIllegalOnes := by
  intro width w hW hw
  have n_iff := mustBeZero_n_iff hW hw
  have r_iff := mustBeZero_r_iff hW hw
  have r2_iff := mustBeZero_r2_iff hW hw
  have j_iff := mustBeZero_j_iff hW hw
  rw [exists_invalid_iff hW hw, Trits.slice_eq_take (n := width - 3) _ (by omega),
    Trits.slice_eq_take (n := width - 7) _ (by omega)]
  refine or_congr_right ⟨?_, ?_⟩
  · rintro ⟨op, hop, hz⟩
    rw [fieldOp] at hop
    rw [hop]
    cases op with
    | halt => exact .inl ⟨rfl, mt n_iff.2 hz⟩
    | move | neg | sgn => exact .inr (.inl ⟨by decide, mt r2_iff.2 hz⟩)
    | add | sub | mul | and | or =>
      have h9 : width ≠ 9 := by
        rintro rfl
        exact hz rfl
      rw [Trits.slice_eq_take (n := width - 9) _ (by omega)]
      exact .inr (.inr (.inl ⟨by decide, h9, mt r_iff.2 hz⟩))
    | jmp => exact .inr (.inr (.inr ⟨rfl, mt j_iff.2 hz⟩))
    | loadi | loadm | store | js => exact absurd rfl hz
  · rintro (⟨hop, hz⟩ | ⟨hop, hz⟩ | ⟨hop, h9, hz⟩ | ⟨hop, hz⟩)
    · exact ⟨.halt, hop, mt n_iff.1 hz⟩
    · obtain ⟨op, hf, hop⟩ := Opcode.exists_r2_of_mem hop
      exact ⟨op, hop, hf ▸ mt r2_iff.1 hz⟩
    · obtain ⟨op, hf, hop⟩ := Opcode.exists_r_of_mem hop
      rw [Trits.slice_eq_take (n := width - 9) _ (by omega)] at hz
      exact ⟨op, hop, hf ▸ mt r_iff.1 hz⟩
    · exact ⟨.jmp, hop, mt j_iff.1 hz⟩

/-- Settles O21: seven closed words, decoded. -/
theorem sampleWordsDecode : Obligations.SampleWordsDecode := by
  unfold Obligations.SampleWordsDecode
  decide

end Sys2Proof
end

section
/-! SUPPORT. The family RegisterFields for every instruction at once. -/

namespace Sys2Proof.Laws

/-- The facts of the family RegisterFields, for whatever instruction. -/
theorem RegisterFields.statement : ∀ i : Instr, RegisterFields.Statement i
  | .halt => RegisterFields.halt
  | .loadi a k => RegisterFields.loadi a k
  | .loadm a k => RegisterFields.loadm a k
  | .store a k => RegisterFields.store a k
  | .move a b => RegisterFields.move a b
  | .add a b c => RegisterFields.add a b c
  | .sub a b c => RegisterFields.sub a b c
  | .mul a b c => RegisterFields.mul a b c
  | .neg a b => RegisterFields.neg a b
  | .and a b c => RegisterFields.and a b c
  | .or a b c => RegisterFields.or a b c
  | .jmp k => RegisterFields.jmp k
  | .js a s kb => RegisterFields.js a s kb
  | .sgn a b => RegisterFields.sgn a b

end Sys2Proof.Laws
end

section
/-! SUPPORT. The word of one instruction (R85) and the pseudo-instructions (R86). -/

namespace Sys2Proof.Asm

/-- A register number that a field holds is at most 4 (R75). -/
theorem le_four_of_wf {width : Nat} {i : Instr} (hi : i.wf width = true) {f : Int} (hf : f ∈ i.registerFields) :
    f ≤ 4 := by
  obtain ⟨-, -, fits⟩ := Laws.RegisterFields.statement i
  have bound : f.natAbs ≤ 4 := of_decide_eq_true (List.all_eq_true.1 (fits width hi) f hf)
  omega

theorem encodable_iff (width : Nat) (i : Instr) :
    encodable width i = true ↔ i.wf width = true ∧ ∀ f ∈ i.registerFields, 0 ≤ f := by
  simp [encodable]

theorem wordOf_ok {width : Nat} {i : Instr} (h : encodable width i = true) : wordOf width i = .ok (encode width i) :=
  if_pos h

theorem wordOf_error {width : Nat} {i : Instr} (h : ¬ encodable width i = true) : wordOf width i = .error .doesNotFit :=
  if_neg h

/-- Settles O56: a word exists exactly for an encodable instruction, whose encoding decodes back. -/
theorem assembledWordsDecodeBack : Obligations.AssembledWordsDecodeBack := by
  intro width i hW
  have numbers : encodable width i = true ↔ i.wf width = true ∧ ∀ f ∈ i.registerFields, 0 ≤ f ∧ f ≤ 4 := by
    rw [encodable_iff]
    exact and_congr_right fun hi => forall₂_congr fun f hf => (and_iff_left (le_four_of_wf hi hf)).symm
  by_cases h : encodable width i = true
  · obtain ⟨hi, -⟩ := numbers.1 h
    obtain ⟨hd, hl⟩ := decodeOfEncodeIsTheInstruction width i hW hi
    rw [wordOf_ok h]
    exact ⟨by rintro _ ⟨⟩; exact ⟨hl, hd⟩, iff_of_true ⟨_, rfl⟩ (numbers.1 h), fun none => absurd ⟨_, rfl⟩ none⟩
  · rw [wordOf_error h]
    exact ⟨nofun, iff_of_false nofun (mt numbers.2 h), fun _ => rfl⟩

theorem registerImmediate_none (x : List Char) {y : List Char} (h : parseImmediate y = none) :
    registerImmediate x y = none := by
  rw [registerImmediate, h]
  cases parseRegister x <;> rfl

theorem registerTarget_none (f : Int → Target → Item) (x : List Char) {y : List Char} (h : parseTarget y = none) :
    registerTarget f x y = none := by
  rw [registerTarget, h]
  cases parseRegister x <;> rfl

/-- Settles O57: each expansion is what the parser answers; `CLR` and `LOAD` with an immediate turn on the parse of
their operands. -/
theorem pseudoInstructionsExpandToCoreWords : Obligations.PseudoInstructionsExpandToCoreWords := by
  intro x y
  refine ⟨rfl, rfl, rfl, rfl, rfl, ?clear, ?loadImmediate, rfl⟩
  case clear =>
    show (parseRegister x).map _ = registerImmediate x ['#', '0']
    rw [registerImmediate]
    cases parseRegister x <;> rfl
  case loadImmediate =>
    cases h : parseImmediate ('#' :: y) with
    | some k => simp only [parseItem, h]
    | none =>
      simp only [parseItem, h]
      exact (registerTarget_none _ x rfl).trans (registerImmediate_none x h).symm

end Sys2Proof.Asm
end

section
/-! SUPPORT. A line of source: its first word and its operands, as R84 and R85 write them, and what the assembler
makes of it. -/

namespace Sys2Proof.Asm

/-- The operands of a line as it is written: a blank before each, commas between them (R84, R85). -/
def operandText : List (List Char) → List Char
  | [] => []
  | [x] => ' ' :: x
  | x :: xs => ' ' :: x ++ ',' :: operandText xs

/-- A line of source without a label: its first word and its operands. -/
def sourceLine (name : List Char) (xs : List (List Char)) : List Char := name ++ operandText xs

theorem operandsOf_operandText : ∀ {xs : List (List Char)}, (∀ x ∈ xs, Solid x) → operandsOf (operandText xs) = xs
  | [], _ => rfl
  | [x], h => operandsOf_one (h x List.mem_cons_self)
  | x :: y :: xs, h => by
    have rest := operandsOf_operandText fun z hz => h z (List.mem_cons_of_mem x hz)
    rw [operandText, operandsOf_cons (h x List.mem_cons_self) (by rw [rest]; exact List.cons_ne_nil y xs), rest]
    exact List.cons_ne_nil y xs

theorem operandText_blank : ∀ xs : List (List Char), operandText xs = [] ∨ ∃ t, operandText xs = ' ' :: t
  | [] => .inl rfl
  | [x] => .inr ⟨x, rfl⟩
  | _ :: _ :: _ => .inr ⟨_, rfl⟩

theorem mem_operandText {c : Char} : ∀ {xs : List (List Char)}, c ∈ operandText xs →
    c = ' ' ∨ c = ',' ∨ ∃ x ∈ xs, c ∈ x
  | [], h => nomatch h
  | [x], h => by
    rcases List.mem_cons.1 h with rfl | h
    · exact .inl rfl
    · exact .inr (.inr ⟨x, List.mem_cons_self, h⟩)
  | x :: y :: xs, h => by
    rcases List.mem_append.1 h with h | h
    · rcases List.mem_cons.1 h with rfl | h
      · exact .inl rfl
      · exact .inr (.inr ⟨x, List.mem_cons_self, h⟩)
    · rcases List.mem_cons.1 h with rfl | h
      · exact .inr (.inl rfl)
      · rcases mem_operandText h with rfl | rfl | ⟨z, hz, h⟩
        · exact .inl rfl
        · exact .inr (.inl rfl)
        · exact .inr (.inr ⟨z, List.mem_cons_of_mem x hz, h⟩)

section
variable {name : List Char} {xs : List (List Char)}

/-- A line of solid pieces holds no comment, no label and no line end. -/
theorem sourceLine_unmarked (hn : Solid name) (hx : ∀ x ∈ xs, Solid x) :
    ∀ c ∈ sourceLine name xs, c ≠ ';' ∧ c ≠ ':' ∧ c ≠ '\n' := by
  have solid : ∀ s, Solid s → ∀ c ∈ s, c ≠ ';' ∧ c ≠ ':' ∧ c ≠ '\n' := by
    intro s hs c hc
    obtain ⟨-, -, marks⟩ := hs.2 c hc
    exact marks
  intro c hc
  rcases List.mem_append.1 hc with hc | hc
  · exact solid name hn c hc
  · rcases mem_operandText hc with rfl | rfl | ⟨x, hm, hc⟩
    · decide
    · decide
    · exact solid x (hx x hm) c hc

/-- The last operand ends the text of the operands. -/
theorem operandText_suffix : ∀ {xs : List (List Char)}, xs ≠ [] → ∃ x ∈ xs, x <:+ operandText xs
  | [x], _ => ⟨x, List.mem_cons_self, List.suffix_cons ' ' x⟩
  | x :: y :: xs, _ => by
    obtain ⟨z, hz, suffix⟩ := operandText_suffix (List.cons_ne_nil y xs)
    have afterComma := suffix.trans (List.suffix_cons ',' _)
    exact ⟨z, List.mem_cons_of_mem x hz, afterComma.trans (List.suffix_append (' ' :: x) _)⟩

theorem Solid.last_not_blank {s t : List Char} (hs : Solid s) (h : s <:+ t) : ∀ c ∈ t.getLast?, isBlank c = false := by
  obtain ⟨before, rfl⟩ := h
  intro c hc
  rw [List.getLast?_append_of_ne_nil _ hs.1] at hc
  exact (hs.2 c (List.mem_of_getLast? hc)).1

theorem trim_sourceLine (hn : Solid name) (hx : ∀ x ∈ xs, Solid x) :
    trim (sourceLine name xs) = sourceLine name xs := by
  refine trim_eq_self (fun c hc => (hn.2 c ?_).1) ?_
  · rw [sourceLine, List.head?_append_of_ne_nil _ hn.1] at hc
    exact List.mem_of_mem_head? hc
  · by_cases none : xs = []
    · subst none
      exact hn.last_not_blank (by rw [sourceLine, operandText, List.append_nil])
    · obtain ⟨x, hm, suffix⟩ := operandText_suffix none
      exact (hx x hm).last_not_blank (suffix.trans (List.suffix_append name _))

/-- A line of solid pieces is parsed as its mnemonic with its operands. -/
theorem parseLine_sourceLine (hn : Solid name) (hx : ∀ x ∈ xs, Solid x) {m : Mnemonic} (hm : mnemonicOf name = some m)
    {item : Item} (hi : parseItem m xs = some item) : parseLine (sourceLine name xs) = .ok ⟨none, some item⟩ := by
  have marks := sourceLine_unmarked hn hx
  have code : (sourceLine name xs).takeWhile (fun c => decide (c ≠ ';')) = sourceLine name xs :=
    List.takeWhile_eq_self_iff.2 fun c hc => decide_eq_true (marks c hc).1
  have operands : operandsOf ((trim (name ++ operandText xs)).drop name.length) = xs := by
    rw [← sourceLine, trim_sourceLine hn hx, sourceLine, List.drop_left, operandsOf_operandText hx]
  have body : parseBody (sourceLine name xs) = .ok (some item) := by
    rw [sourceLine, parseBody_name hn.1 (fun c hc => (hn.2 c hc).1) (operandText_blank xs), hm]
    simp only [operands, hi]
  rw [parseLine_unlabelled fun c hc => (marks c hc).2.1, code, body]

/-- A text of one such line is the word of its item. -/
theorem assembleText_sourceLine {line : String} (hl : line.toList = sourceLine name xs) (hn : Solid name)
    (hx : ∀ x ∈ xs, Solid x) {m : Mnemonic} (hm : mnemonicOf name = some m)
    {item : Item} (hi : parseItem m xs = some item) (width : Nat) :
    assembleText width line = (itemWord width [] item).map fun w => [w] := by
  have oneLine : ∀ c ∈ sourceLine name xs, c ≠ '\n' := fun c hc => by
    obtain ⟨-, -, newline⟩ := sourceLine_unmarked hn hx c hc
    exact newline
  rw [assembleText, hl, assemble_line oneLine (parseLine_sourceLine hn hx hm hi)]
  cases itemWord width [] item <;> rfl

end

end Sys2Proof.Asm
end

section
/-! SUPPORT. The rows of the table of R85, the `.word` line and the unknown mnemonic (R84, R85). -/

namespace Sys2Proof.Asm

/-- A register operand as written (R84). -/
def registerOperand (n : Nat) : List Char := 'r' :: (toString n).toList

/-- An immediate operand as written (R84). -/
def immediateOperand (k : Int) : List Char := '#' :: (toString k).toList

/-- An address or jump target as written (R84). -/
def addressOperand (k : Int) : List Char := '@' :: (toString k).toList

theorem solid_singleton {c : Char} (h : isBlank c = false ∧ c ≠ ',' ∧ c ≠ ';' ∧ c ≠ ':' ∧ c ≠ '\n') : Solid [c] :=
  ⟨List.cons_ne_nil c [], List.forall_mem_singleton.2 h⟩

@[simp] theorem solid_registerOperand (n : Nat) : Solid (registerOperand n) :=
  (solid_singleton (c := 'r') (by decide)).append (solid_toString_nat n)

@[simp] theorem solid_immediateOperand (k : Int) : Solid (immediateOperand k) :=
  (solid_singleton (c := '#') (by decide)).append (solid_toString_int k)

@[simp] theorem solid_addressOperand (k : Int) : Solid (addressOperand k) :=
  (solid_singleton (c := '@') (by decide)).append (solid_toString_int k)

theorem solid_toChar (t : Trit) : Solid [t.toChar] := by
  cases t <;> exact solid_singleton (by decide)

@[simp] theorem parseRegister_registerOperand (n : Nat) : parseRegister (registerOperand n) = some (n : Int) := by
  rw [registerOperand, parseRegister, parseNat_toString]
  rfl

@[simp] theorem parseImmediate_immediateOperand (k : Int) : parseImmediate (immediateOperand k) = some k :=
  parseInt_toString k

@[simp] theorem parseTarget_addressOperand (k : Int) : parseTarget (addressOperand k) = some (.number k) := by
  rw [addressOperand, parseTarget, parseInt_toString]

@[simp] theorem ofChar_toChar (t : Trit) : Trit.ofChar t.toChar = some t := by
  cases t <;> rfl

@[simp] theorem parseTrit_toChar (t : Trit) : parseTrit [t.toChar] = some t := ofChar_toChar t

theorem mnemonicOf_eq_none_iff {name : List Char} :
    mnemonicOf name = none ↔ ∀ p ∈ mnemonicTable, p.1.toList ≠ name := by
  simp [mnemonicOf]

/-- A name holds no blank and no mark of the assembler. -/
theorem solid_of_isName {name : List Char} (h : isName name = true) : Solid name := by
  have letters : ∀ c ∈ name, c.isAlphanum = true ∨ c = '_' := by
    cases name with
    | nil => nofun
    | cons c rest =>
      simp only [isName, Bool.and_eq_true, Bool.or_eq_true, decide_eq_true_eq, List.all_eq_true] at h
      obtain ⟨first, others⟩ := h
      exact List.forall_mem_cons.2 ⟨first.imp_left fun alpha => by simp [Char.isAlphanum, alpha], others⟩
  have notEmpty : name ≠ [] := by
    rintro rfl
    cases h
  refine ⟨notEmpty, fun c hc => ?_⟩
  have notMark : ∀ mark ∈ [' ', '\t', '\r', ',', ';', ':', '\n'], c ≠ mark := by
    have marks : ∀ mark ∈ [' ', '\t', '\r', ',', ';', ':', '\n'], ¬ (mark.isAlphanum = true ∨ mark = '_') := by
      simp
    rintro mark hm rfl
    exact marks c hm (letters c hc)
  simpa [isBlank, and_assoc] using notMark

theorem mnemonicTable_solid : ∀ p ∈ mnemonicTable, Solid p.1.toList := by
  have names : ∀ p ∈ mnemonicTable, isName p.1.toList = true ∨ p.1 = ".word" := by
    simp [mnemonicTable, isName]
  intro p hp
  rcases names p hp with name | word
  · exact solid_of_isName name
  · rw [word]
    exact (solid_singleton (c := '.') (by decide)).append (solid_of_isName (name := "word".toList) rfl)

theorem solid_of_mnemonicOf {name : List Char} {m : Mnemonic} (h : mnemonicOf name = some m) : Solid name := by
  by_contra notSolid
  have unknown : mnemonicOf name = none :=
    mnemonicOf_eq_none_iff.2 fun p hp e => notSolid (e ▸ mnemonicTable_solid p hp)
  cases unknown.symm.trans h

/-- The line of source stands for the instruction: it assembles to the one word of the instruction, or is refused where
a number does not fit its field (R85). -/
def AssemblesTo (width : Nat) (line : String) (i : Instr) : Prop :=
  (i.wf width = true → assembleText width line = .ok [encode width i]) ∧
    (i.wf width = false → assembleText width line = .error .doesNotFit)

section
variable {name : List Char} {m : Mnemonic} {line : String} {width d a b : Nat} {k : Int}

theorem assemblesTo_of_parseItem {xs : List (List Char)} {item : Item} {i : Instr}
    (hl : line.toList = sourceLine name xs) (hm : mnemonicOf name = some m)
    (hx : ∀ x ∈ xs, Solid x) (hi : parseItem m xs = some item)
    (hw : itemWord width [] item = wordOf width i) (hr : ∀ f ∈ i.registerFields, 0 ≤ f) : AssemblesTo width line i := by
  rw [AssemblesTo, assembleText_sourceLine hl (solid_of_mnemonicOf hm) hx hm hi, hw]
  refine ⟨fun fits => ?_, fun misfit => ?_⟩
  · rw [wordOf_ok ((encodable_iff width i).2 ⟨fits, hr⟩)]
    rfl
  · have refused : ¬ encodable width i = true := fun h => by
      obtain ⟨fits, -⟩ := (encodable_iff width i).1 h
      cases misfit.symm.trans fits
    rw [wordOf_error refused]
    rfl

theorem assemblesTo_twoRegisters {f : Int → Int → Instr}
    (hl : line.toList = sourceLine name [registerOperand d, registerOperand a]) (hm : mnemonicOf name = some m)
    (hp : ∀ x y, parseItem m [x, y] = twoRegisters f x y) (hr : (f d a).registerFields = [(d : Int), (a : Int)]) :
    AssemblesTo width line (f d a) :=
  assemblesTo_of_parseItem (item := .plain (f d a)) hl hm (by simp) (by simp [hp, twoRegisters]) rfl (by simp [hr])

theorem assemblesTo_threeRegisters {f : Int → Int → Int → Instr}
    (hl : line.toList = sourceLine name [registerOperand d, registerOperand a, registerOperand b])
    (hm : mnemonicOf name = some m) (hp : ∀ x y z, parseItem m [x, y, z] = threeRegisters f x y z)
    (hr : (f d a b).registerFields = [(d : Int), (a : Int), (b : Int)]) : AssemblesTo width line (f d a b) :=
  assemblesTo_of_parseItem (item := .plain (f d a b)) hl hm (by simp) (by simp [hp, threeRegisters]) rfl (by simp [hr])

theorem assemblesTo_registerTarget {f : Int → Target → Item} {i : Instr}
    (hl : line.toList = sourceLine name [registerOperand d, addressOperand k]) (hm : mnemonicOf name = some m)
    (hp : ∀ x y, parseItem m [x, y] = registerTarget f x y)
    (hw : itemWord width [] (f d (.number k)) = wordOf width i) (hr : i.registerFields = [(d : Int)]) :
    AssemblesTo width line i :=
  assemblesTo_of_parseItem hl hm (by simp)
    (by simp only [hp, registerTarget, parseRegister_registerOperand, parseTarget_addressOperand]) hw (by simp [hr])

end

theorem sourceLine_two (name : List Char) (d a : Nat) : sourceLine name [registerOperand d, registerOperand a]
    = name ++ [' ', 'r'] ++ (toString d).toList ++ [',', ' ', 'r'] ++ (toString a).toList := by
  simp [sourceLine, operandText, registerOperand]

theorem sourceLine_three (name : List Char) (d a b : Nat) :
    sourceLine name [registerOperand d, registerOperand a, registerOperand b]
      = name ++ [' ', 'r'] ++ (toString d).toList ++ [',', ' ', 'r'] ++ (toString a).toList ++ [',', ' ', 'r']
        ++ (toString b).toList := by
  simp [sourceLine, operandText, registerOperand]

theorem sourceLine_address (name : List Char) (d : Nat) (k : Int) :
    sourceLine name [registerOperand d, addressOperand k]
      = name ++ [' ', 'r'] ++ (toString d).toList ++ [',', ' ', '@'] ++ (toString k).toList := by
  simp [sourceLine, operandText, registerOperand, addressOperand]

theorem assemblesTo_loadi (width d : Nat) (k : Int) :
    AssemblesTo width ("LOADI r" ++ toString d ++ ", #" ++ toString k) (.loadi d k) :=
  assemblesTo_of_parseItem (name := "LOADI".toList) (xs := [registerOperand d, immediateOperand k])
    (item := .plain (.loadi d k)) (by simp [sourceLine, operandText, registerOperand, immediateOperand]) rfl (by simp)
    (by simp [parseItem, registerImmediate]) rfl (by simp [Instr.registerFields])

theorem assemblesTo_jmp (width : Nat) (k : Int) : AssemblesTo width ("JMP @" ++ toString k) (.jmp k) :=
  assemblesTo_of_parseItem (name := "JMP".toList) (xs := [addressOperand k]) (item := .jmp (.number k))
    (by simp [sourceLine, operandText, addressOperand]) rfl (by simp) (by simp [parseItem]) rfl nofun

theorem assemblesTo_js (width a : Nat) (s : Trit) (k : Int) :
    AssemblesTo width ("JS r" ++ toString a ++ ", " ++ String.ofList [s.toChar] ++ ", @" ++ toString k) (.js a s k) :=
  assemblesTo_of_parseItem (name := "JS".toList) (xs := [registerOperand a, [s.toChar], addressOperand k])
    (item := .js a s (.number k)) (by simp [sourceLine, operandText, registerOperand, addressOperand]) rfl
    (by simp [solid_toChar]) (by simp [parseItem, registerTarget]) rfl (by simp [Instr.registerFields])

theorem mapM_ofChar_toChar (t : Trits) : (t.map Trit.toChar).mapM Trit.ofChar = some t := by
  induction t with
  | nil => rfl
  | cons x t ih => simp [ih]

/-- The text of a sequence is read back (R134). -/
theorem ofChars_toChars (t : Trits) : Trits.ofChars (Trits.toChars t) = .ok t := by
  rw [Trits.ofChars, Trits.toChars, List.reverse_reverse, mapM_ofChar_toChar]

theorem solid_toChars {t : Trits} (ht : t ≠ []) : Solid (Trits.toChars t) := by
  refine ⟨by simpa [Trits.toChars] using ht, fun c hc => ?_⟩
  obtain ⟨x, -, rfl⟩ := List.mem_map.1 (List.mem_reverse.1 hc)
  exact (solid_toChar x).2 _ List.mem_cons_self

theorem assembleText_word (width : Nat) {t : Trits} (ht : t ≠ []) :
    assembleText width (".word " ++ Trits.toText t) = (itemWord width [] (.word t)).map fun w => [w] := by
  refine assembleText_sourceLine (name := ".word".toList) (xs := [Trits.toChars t]) (m := .word) ?_ ?_ ?_ rfl ?_ width
  · simp [sourceLine, operandText, Trits.toText]
  · exact mnemonicTable_solid (".word", .word) (by simp [mnemonicTable])
  · simpa using solid_toChars ht
  · simp only [parseItem, ofChars_toChars]

theorem assembleText_word_ok {width : Nat} {t : Trits} (ht : t ≠ []) (hl : t.length = width) :
    assembleText width (".word " ++ Trits.toText t) = .ok [⟨t⟩] := by
  rw [assembleText_word width ht, itemWord, if_pos hl]
  rfl

theorem assembleText_word_error {width : Nat} {t : Trits} (hl : t.length ≠ width) :
    ∃ e, assembleText width (".word " ++ Trits.toText t) = .error e := by
  by_cases ht : t = []
  · subst ht
    exact ⟨.malformed, rfl⟩
  · rw [assembleText_word width ht, itemWord, if_neg hl]
    exact ⟨.doesNotFit, rfl⟩

theorem assemble_unknownMnemonic (width : Nat) {name rest : List Char} (hn : name ≠ [])
    (hc : ∀ c ∈ name, c ∉ [' ', '\t', '\r', '\n', ';', ':']) (hr : ∀ c ∈ rest, c ≠ ':' ∧ c ≠ '\n')
    (unknown : mnemonicOf name = none) : assemble width (name ++ ' ' :: rest) = .error .unknownMnemonic := by
  simp only [List.mem_cons, List.not_mem_nil, or_false, not_or] at hc
  have notBlank : ∀ c ∈ name, isBlank c = false := fun c h => by
    obtain ⟨space, tab, cr, -⟩ := hc c h
    simp [isBlank, space, tab, cr]
  have marks : ∀ c ∈ name ++ ' ' :: rest, c ≠ ':' ∧ c ≠ '\n' := by
    refine List.forall_mem_append.2 ⟨fun c h => ?_, List.forall_mem_cons.2 ⟨by decide, hr⟩⟩
    obtain ⟨-, -, -, newline, -, colon⟩ := hc c h
    exact ⟨colon, newline⟩
  have code : (name ++ ' ' :: rest).takeWhile (fun c => decide (c ≠ ';'))
      = name ++ ' ' :: rest.takeWhile fun c => decide (c ≠ ';') := by
    rw [List.takeWhile_append_of_pos, List.takeWhile_cons_of_pos (by decide)]
    intro c h
    obtain ⟨-, -, -, -, semicolon, -⟩ := hc c h
    exact decide_eq_true semicolon
  refine assemble_line_error (fun c h => (marks c h).2) ?_
  rw [parseLine_unlabelled fun c h => (marks c h).1, code, parseBody_name hn notBlank (.inr ⟨_, rfl⟩), unknown]

theorem mnemonicOf_eq_none {name : List Char} (h : String.ofList name ∉ mnemonicTable.map Prod.fst) :
    mnemonicOf name = none := by
  refine mnemonicOf_eq_none_iff.2 fun p hp e => h ?_
  rw [← e, String.ofList_toList]
  exact List.mem_map_of_mem hp

/-- Settles O58: each row of the table is a source line that parses as its item, and the item's word is `wordOf`. -/
theorem sourceLinesAssembleToTheirInstruction : Obligations.SourceLinesAssembleToTheirInstruction := by
  refine ⟨?rows, fun width t hW => ⟨fun hl => ?wordFits, assembleText_word_error⟩, ?unknown⟩
  case wordFits =>
    have notEmpty : t ≠ [] := by
      rintro rfl
      rw [List.length_nil] at hl
      omega
    exact assembleText_word_ok notEmpty hl
  case unknown =>
    intro width name rest hn hc hr unlisted
    exact assemble_unknownMnemonic width hn hc hr (mnemonicOf_eq_none unlisted)
  case rows =>
    intro width d a b k s _
    simp only [List.forall_mem_cons]
    refine ⟨?halt, assemblesTo_loadi width d k, ?loadm, ?store, ?move, ?add, ?sub, ?mul, ?and, ?or, ?neg, ?sgn,
      assemblesTo_jmp width k, assemblesTo_js width a s k, nofun⟩
    case halt => exact assemblesTo_of_parseItem (name := "HALT".toList) (xs := []) rfl rfl nofun rfl rfl nofun
    case loadm =>
      exact assemblesTo_registerTarget (name := "LOADM".toList) (by simp [sourceLine_address]) rfl (fun _ _ => rfl)
        rfl rfl
    case store =>
      exact assemblesTo_registerTarget (name := "STORE".toList) (by simp [sourceLine_address]) rfl (fun _ _ => rfl)
        rfl rfl
    case move =>
      exact assemblesTo_twoRegisters (name := "MOVE".toList) (by simp [sourceLine_two]) rfl (fun _ _ => rfl) rfl
    case neg =>
      exact assemblesTo_twoRegisters (name := "NEG".toList) (by simp [sourceLine_two]) rfl (fun _ _ => rfl) rfl
    case sgn =>
      exact assemblesTo_twoRegisters (name := "SGN".toList) (by simp [sourceLine_two]) rfl (fun _ _ => rfl) rfl
    case add =>
      exact assemblesTo_threeRegisters (name := "ADD".toList) (by simp [sourceLine_three]) rfl (fun _ _ _ => rfl) rfl
    case sub =>
      exact assemblesTo_threeRegisters (name := "SUB".toList) (by simp [sourceLine_three]) rfl (fun _ _ _ => rfl) rfl
    case mul =>
      exact assemblesTo_threeRegisters (name := "MUL".toList) (by simp [sourceLine_three]) rfl (fun _ _ _ => rfl) rfl
    case and =>
      exact assemblesTo_threeRegisters (name := "AND".toList) (by simp [sourceLine_three]) rfl (fun _ _ _ => rfl) rfl
    case or =>
      exact assemblesTo_threeRegisters (name := "OR".toList) (by simp [sourceLine_three]) rfl (fun _ _ _ => rfl) rfl

end Sys2Proof.Asm
end

section
/-! SUPPORT. Labels and the words of a text (R84). -/

namespace Sys2Proof.Asm

/-- A line that starts with a name and a colon defines that label, and its item is that of the rest (R84). -/
theorem parseLine_label {name rest : List Char} {item : Option Item} (hn : isName name = true)
    (hr : ∀ c ∈ rest, c ≠ ';') (hb : parseBody rest = .ok item) :
    parseLine (name ++ ':' :: rest) = .ok ⟨some name, item⟩ := by
  have solid := solid_of_isName hn
  have code : (name ++ ':' :: rest).takeWhile (fun c => decide (c ≠ ';')) = name ++ ':' :: rest := by
    refine List.takeWhile_eq_self_iff.2 (List.forall_mem_append.2 ⟨fun c hc => ?_, ?_⟩)
    · obtain ⟨-, -, semicolon, -⟩ := solid.2 c hc
      exact decide_eq_true semicolon
    · exact List.forall_mem_cons.2 ⟨by decide, fun c hc => decide_eq_true (hr c hc)⟩
  have before : (name ++ ':' :: rest).takeWhile (fun c => decide (c ≠ ':')) = name := by
    rw [List.takeWhile_append_of_pos, List.takeWhile_cons_of_neg (by decide), List.append_nil]
    intro c hc
    obtain ⟨-, -, -, colon, -⟩ := solid.2 c hc
    exact decide_eq_true colon
  have body : (name ++ ':' :: rest).drop (name.length + 1) = rest := by
    rw [List.drop_append, List.drop_of_length_le (by omega)]
    simp
  have colon : name.length < (name ++ ':' :: rest).length := by simp
  simp only [parseLine, code, before, if_pos colon, solid.trim, if_pos hn, body, hb]

theorem distinctNames_iff (names : List (List Char)) : distinctNames names = true ↔ names.Nodup := by
  induction names with
  | nil => simp [distinctNames]
  | cons name rest ih => simp [distinctNames, ih, ← List.forall_mem_ne']

/-- Among distinct labels a name resolves to the one value listed for it. -/
theorem resolve_of_mem {labels : List (List Char × Nat)} (hd : (labels.map Prod.fst).Nodup) {name : List Char} {v : Nat}
    (h : (name, v) ∈ labels) : resolve labels (.label name) = .ok (v : Int) := by
  cases hf : labels.find? fun p => decide (p.1 = name) with
  | none => exact absurd (decide_eq_true rfl) (List.find?_eq_none.1 hf _ h)
  | some p =>
    have same : p = (name, v) :=
      List.inj_on_of_nodup_map hd (List.mem_of_find?_eq_some hf) h (by simpa using List.find?_some hf)
    simp only [resolve, hf, same]

theorem mem_labelTable (before after : List Line) {line : Line} {name : List Char} (hl : line.label = some name) :
    (name, (before.filterMap Line.item).length) ∈ labelTable 0 (before ++ line :: after) := by
  rw [labelTable_append]
  simp [labelTable, hl]

theorem itemWord_label {width : Nat} {labels : List (List Char × Nat)} {name : List Char} {v : Int} (r : Int) (s : Trit)
    (h : resolve labels (.label name) = .ok v) :
    itemWord width labels (.loadm r (.label name)) = wordOf width (.loadm r v) ∧
    itemWord width labels (.store r (.label name)) = wordOf width (.store r v) ∧
    itemWord width labels (.jmp (.label name)) = wordOf width (.jmp v) ∧
    itemWord width labels (.js r s (.label name)) = wordOf width (.js r s v) := by
  simp only [itemWord, h, and_self]

/-- What an assembled text has passed: its lines parse, its labels are distinct, and every item has a word. -/
theorem assemble_ok {width : Nat} {text : List Char} {ws : List Word} (h : assemble width text = .ok ws) :
    ∃ lines, parseLines (split '\n' text) = .ok lines ∧ distinctNames ((labelTable 0 lines).map Prod.fst) = true ∧
      itemWords width (labelTable 0 lines) (lines.filterMap Line.item) = .ok ws := by
  cases hp : parseLines (split '\n' text) with
  | error e => simp [assemble, hp] at h
  | ok lines =>
    simp only [assemble, hp] at h
    split at h
    · exact ⟨lines, rfl, ‹_›, h⟩
    · cases h

/-- Settles O59: the parts are the lemmas about `parseLine`, `labelTable`, `itemWord` and `assemble`. -/
theorem labelsNameTheNextWordsAddress : Obligations.LabelsNameTheNextWordsAddress := by
  refine ⟨fun name rest item => parseLine_label, ?value, fun width labels name r v s => itemWord_label r s, ?words⟩
  case value =>
    intro before after line name hl hd
    exact resolve_of_mem ((distinctNames_iff _).1 hd) (mem_labelTable before after hl)
  case words =>
    intro width text ws h
    obtain ⟨lines, parsed, distinct, words⟩ := assemble_ok h
    obtain ⟨count, each⟩ := itemWords_ok words
    exact ⟨lines, parsed, distinct, count, each⟩

end Sys2Proof.Asm
end

section
/-! SUPPORT. The single-trit units of 40_trit.md: the gates by value, and the full adder, whose two outputs are the only
trits with `3 * cout + sum = a + b + cin`. -/

namespace Sys2Proof

/-- R102: the outputs are determined by the value equation, so that the sum of the inputs alone fixes them. -/
theorem Trit.addWithCarry_eq_of_value {a b cin sum cout : Trit}
    (h : 3 * cout.toInt + sum.toInt = a.toInt + b.toInt + cin.toInt) : Trit.addWithCarry a b cin = (sum, cout) := by
  have value := Trit.addWithCarry_value a b cin
  have bounds := (Trit.addWithCarry a b cin).1.toInt_bounds
  have sumBounds := sum.toInt_bounds
  have sumEq : (Trit.addWithCarry a b cin).1 = sum := Trit.toInt_injective (by omega)
  have coutEq : (Trit.addWithCarry a b cin).2 = cout := Trit.toInt_injective (by omega)
  exact Prod.ext sumEq coutEq

/-- Inputs of equal sum have equal outputs. -/
theorem Trit.addWithCarry_congr {a b cin a' b' cin' : Trit}
    (h : a.toInt + b.toInt + cin.toInt = a'.toInt + b'.toInt + cin'.toInt) :
    Trit.addWithCarry a b cin = Trit.addWithCarry a' b' cin' :=
  Trit.addWithCarry_eq_of_value ((Trit.addWithCarry_value a' b' cin').trans h.symm)

/-- The sum output is the input sum's balanced residue modulo 3. -/
theorem Trit.addWithCarry_sum (a b cin : Trit) :
    (Trit.addWithCarry a b cin).1.toInt = (a.toInt + b.toInt + cin.toInt + 1) % 3 - 1 := by
  have value := Trit.addWithCarry_value a b cin
  have bounds := (Trit.addWithCarry a b cin).1.toInt_bounds
  omega

/-- Settles O1: each symmetry keeps or negates the input sum, which determines both outputs. -/
theorem fullAdderSplitsTheSum : Obligations.FullAdderSplitsTheSum := by
  intro a b cin
  have value := Trit.addWithCarry_value a b cin
  refine ⟨Trit.addWithCarry_sum a b cin, value, ?swapInputs, ?swapCarry, ?negated⟩
  case swapInputs => exact Trit.addWithCarry_congr (by omega)
  case swapCarry => exact Trit.addWithCarry_congr (by omega)
  case negated =>
    apply Trit.addWithCarry_eq_of_value
    simp only [Trit.negate_toInt]
    omega

/-- R106. -/
@[simp] theorem Trit.and_toInt (a b : Trit) : (Trit.and a b).toInt = min a.toInt b.toInt :=
  (apply_ite Trit.toInt _ a b).trans (min_def _ _).symm

/-- R107. -/
@[simp] theorem Trit.or_toInt (a b : Trit) : (Trit.or a b).toInt = max a.toInt b.toInt :=
  (apply_ite Trit.toInt _ b a).trans (max_def _ _).symm

/-- R108. -/
theorem Trit.not_eq_negate (a : Trit) : Trit.not a = Trit.negate a := rfl

/-- Settles O2: the gates choose by value, and `not` is `negate`, whose value is the negation. -/
theorem tritGatesAreMinMaxNegate : Obligations.TritGatesAreMinMaxNegate := fun a b =>
  ⟨Trit.and_toInt a b, Trit.or_toInt a b, Trit.negate_toInt a, Trit.not_eq_negate a⟩

end Sys2Proof
end

section
/-! SUPPORT. The operations on trit sequences by value and by position (41_trits.md R121 to R130): what
alignment keeps, the value of the ripple chain, and when a value fits a width: exactly when nothing stands above its low
trits, and always for a product at the joint width of its factors. -/

namespace Sys2Proof

@[simp] theorem Trits.int_sext (n : Nat) (t : Trits) : Trits.int (Trits.sext n t) = Trits.int t := by
  rw [Trits.sext, Trits.int_append, Trits.int_replicate_zero, mul_zero, add_zero]

/-- A missing trit is ZERO (R121). -/
@[simp] theorem Trits.getD_sext (n : Nat) (t : Trits) (i : Nat) : (Trits.sext n t).getD i .zero = t.getD i .zero := by
  rw [Trits.sext]
  rcases Nat.lt_or_ge i t.length with inside | beyond
  · exact List.getD_append _ _ _ _ inside
  · rw [List.getD_append_right _ _ _ _ beyond, List.getD_eq_default _ _ beyond, List.getD_eq_getElem?_getD,
      List.getElem?_replicate]
    split <;> rfl

theorem Trits.length_align_fst (a b : Trits) : (Trits.align a b).1.length = max a.length b.length :=
  (Trits.length_sext _ a).trans (max_eq_left (le_max_left ..))

theorem Trits.length_align_snd (a b : Trits) : (Trits.align a b).2.length = max a.length b.length :=
  (Trits.length_sext _ b).trans (max_eq_left (le_max_right ..))

/-- The chain of full adders keeps the value of its inputs, the carry out weighing `3^n` (R123, R125). -/
theorem Trits.int_ripple (l : List (Trit × Trit)) (c : Trit) :
    Trits.int (l.map Prod.fst) + Trits.int (l.map Prod.snd) + c.toInt
      = (Trits.ripple l c).2.toInt * 3 ^ l.length + Trits.int (Trits.ripple l c).1 := by
  induction l generalizing c with
  | nil => simp [Trits.ripple]
  | cons p rest ih =>
    have digit := Trit.addWithCarry_value p.1 p.2 c
    have higher := ih (Trit.addWithCarry p.1 p.2 c).2
    simp only [List.map_cons, Trits.int_cons, Trits.ripple, List.length_cons, pow_succ]
    linarith

/-- The same for two operands of one length. -/
theorem Trits.int_ripple_zip {a b : Trits} (h : a.length = b.length) (c : Trit) :
    Trits.int a + Trits.int b + c.toInt
      = (Trits.ripple (a.zip b) c).2.toInt * 3 ^ a.length + Trits.int (Trits.ripple (a.zip b) c).1 := by
  have value := Trits.int_ripple (a.zip b) c
  rwa [List.map_fst_zip h.le, List.map_snd_zip h.ge, List.length_zip, ← h, min_self] at value

theorem Trits.length_ripple_zip {a b : Trits} (h : a.length = b.length) (c : Trit) :
    (Trits.ripple (a.zip b) c).1.length = a.length := by
  rw [Trits.length_ripple, List.length_zip, ← h, min_self]

@[simp] theorem Trits.int_negate (t : Trits) : Trits.int (Trits.negate t) = -Trits.int t := by
  induction t with
  | nil => rfl
  | cons x t ih =>
    show x.negate.toInt + 3 * Trits.int (Trits.negate t) = -(x.toInt + 3 * Trits.int t)
    rw [ih, Trit.negate_toInt]
    ring

@[simp] theorem Trits.negate_negate (t : Trits) : Trits.negate (Trits.negate t) = t := by
  simp [Trits.negate, Function.comp_def]

/-- A value whose low `n` trits are `t` fits in `n` trits exactly when nothing stands above them. -/
theorem Trits.natAbs_le_maxPos_iff {t : Trits} {n : Nat} (ht : t.length = n) (high : Int) :
    (high * 3 ^ n + Trits.int t).natAbs ≤ maxPos n ↔ high = 0 := by
  have low := ht ▸ t.natAbs_int_le_maxPos
  have power : (3 : Int) ^ n = 2 * maxPos n + 1 := by exact_mod_cast three_pow_eq n
  constructor
  · intro fits
    by_contra nonzero
    rcases lt_or_gt_of_ne nonzero with negative | positive
    · have : high * 3 ^ n ≤ -1 * 3 ^ n := mul_le_mul_of_nonneg_right (by omega) (by positivity)
      omega
    · have : 1 * 3 ^ n ≤ high * 3 ^ n := mul_le_mul_of_nonneg_right (by omega) (by positivity)
      omega
  · rintro rfl
    rwa [zero_mul, zero_add]

theorem Trits.int_eq_zero_iff {t : Trits} : Trits.int t = 0 ↔ t = Trits.zeros t.length := by
  constructor
  · exact fun zero => Trits.int_injective (Trits.length_zeros _).symm (zero.trans (Trits.int_zeros _).symm)
  · intro zeros
    rw [zeros, Trits.int_zeros]

theorem maxPos_add (m n : Nat) : maxPos (m + n) = 2 * maxPos m * maxPos n + maxPos m + maxPos n := by
  have sum := three_pow_eq (m + n)
  rw [pow_add, three_pow_eq m, three_pow_eq n] at sum
  linarith

/-- A product fits in as many trits as its factors have together (R128, R129). -/
theorem Trits.natAbs_int_mul_le_maxPos (a b : Trits) :
    (Trits.int a * Trits.int b).natAbs ≤ maxPos (a.length + b.length) := by
  rw [Int.natAbs_mul, maxPos_add]
  calc
    _ ≤ maxPos a.length * maxPos b.length := Nat.mul_le_mul a.natAbs_int_le_maxPos b.natAbs_int_le_maxPos
    _ ≤ _ := by rw [mul_assoc]; omega

/-- A gate on the aligned operands acts at each position on their own trits (R130). -/
theorem Trits.getD_zipWith_align (f : Trit → Trit → Trit) (a b : Trits) {i : Nat} (hi : i < max a.length b.length) :
    (List.zipWith f (Trits.align a b).1 (Trits.align a b).2).getD i .zero = f (a.getD i .zero) (b.getD i .zero) := by
  have ha : i < (Trits.align a b).1.length := hi.trans_eq (Trits.length_align_fst a b).symm
  have hb : i < (Trits.align a b).2.length := hi.trans_eq (Trits.length_align_snd a b).symm
  have positions : f ((Trits.align a b).1.getD i .zero) ((Trits.align a b).2.getD i .zero)
      = f (a.getD i .zero) (b.getD i .zero) := by
    simp only [Trits.align, Trits.getD_sext]
  rw [← positions, List.getD_eq_getElem _ _ ha, List.getD_eq_getElem _ _ hb,
    List.getD_eq_getElem _ _ (by simp [ha, hb]), List.getElem_zipWith]

theorem Trits.length_zipWith_align (f : Trit → Trit → Trit) (a b : Trits) :
    (List.zipWith f (Trits.align a b).1 (Trits.align a b).2).length = max a.length b.length := by
  rw [List.length_zipWith, Trits.length_align_fst, Trits.length_align_snd, min_self]

end Sys2Proof
end

section
/-! The sequence operations of 41_trits.md: addition, negation and the gates. -/

namespace Sys2Proof

/-- Sum trits and final carry of the aligned operands (R122). -/
def Trits.alignedRipple (a b : Trits) : Trits × Trit :=
  Trits.ripple ((Trits.align a b).1.zip (Trits.align a b).2) .zero

theorem Trits.add_eq (a b : Trits) :
    Trits.add a b = (Trits.alignedRipple a b).1
      ++ if (Trits.alignedRipple a b).2 = .zero then [] else [(Trits.alignedRipple a b).2] := by
  show (if (Trits.alignedRipple a b).2 = .zero then _ else _) = _
  split
  · exact (List.append_nil _).symm
  · rfl

section
variable (a b : Trits)

theorem Trits.align_lengths_eq : (Trits.align a b).1.length = (Trits.align a b).2.length :=
  (Trits.length_align_fst a b).trans (Trits.length_align_snd a b).symm

theorem Trits.length_alignedRipple : (Trits.alignedRipple a b).1.length = max a.length b.length :=
  (Trits.length_ripple_zip (Trits.align_lengths_eq a b) .zero).trans (Trits.length_align_fst a b)

theorem Trits.int_alignedRipple :
    (Trits.alignedRipple a b).2.toInt * 3 ^ max a.length b.length + Trits.int (Trits.alignedRipple a b).1
      = Trits.int a + Trits.int b := by
  have value := Trits.int_ripple_zip (Trits.align_lengths_eq a b) .zero
  rw [Trits.length_align_fst, Trit.toInt, add_zero] at value
  simp only [Trits.align, Trits.int_sext] at value
  exact value.symm

end

/-- Settles O10: the sum trits are followed by the final carry, or by nothing where the carry is ZERO. -/
theorem sequenceAddIsExact : Obligations.SequenceAddIsExact := by
  intro a b
  have value := Trits.int_alignedRipple a b
  have length := Trits.length_alignedRipple a b
  rw [Trits.add_eq, Trits.int_append, List.length_append, length]
  show _ ∧ _ = _ + if (Trits.alignedRipple a b).2 = .zero then 0 else 1
  split
  next noCarry =>
    rw [noCarry, Trit.toInt] at value
    exact ⟨by simpa using value, rfl⟩
  next carry =>
    refine ⟨?_, rfl⟩
    rw [Trits.int_cons, Trits.int_nil, ← value]
    ring

/-- Settles O11: every trit has its negation, so that the length is kept, and with it the symmetric range. -/
theorem sequenceNegationNegatesInt : Obligations.SequenceNegationNegatesInt := by
  intro t
  have inRange : (Trits.int (Trits.negate t)).natAbs ≤ maxPos t.length := by
    rw [Trits.int_negate, Int.natAbs_neg]
    exact t.natAbs_int_le_maxPos
  exact ⟨Trits.length_negate t, fun i _ => List.getD_map t .zero Trit.negate, Trits.int_negate t,
    Trits.negate_negate t, inRange⟩

/-- Settles O13: both gates act on the aligned operands position by position, and there by value. -/
theorem sequenceGatesActPerPosition : Obligations.SequenceGatesActPerPosition := by
  intro a b
  refine ⟨Trits.length_zipWith_align .., Trits.length_zipWith_align .., fun i hi => ⟨?_, ?_⟩, rfl⟩
  · rw [Trits.and, Trits.getD_zipWith_align _ a b hi, Trit.and_toInt]
  · rw [Trits.or, Trits.getD_zipWith_align _ a b hi, Trit.or_toInt]

end Sys2Proof
end

section
/-! The shift-and-add multiplier (R128). Dropping the trits above `n` keeps a value modulo `3^n`, and the product is the
only value of its residue that fits. -/

namespace Sys2Proof

/-- One round of the loop of R128: the accumulator after the digit `t` at position `i`. -/
def Trits.addDigit (n : Nat) (a : Trits) (i : Nat) (t : Trit) (acc : Trits) : Trits :=
  match t with
  | .positive => Trits.accumulate n acc (Trits.concat a (Trits.zeros i))
  | .negative => Trits.accumulate n acc (Trits.concat (Trits.negate a) (Trits.zeros i))
  | .zero => acc

theorem Trits.shiftAdd_cons (n : Nat) (a : Trits) (i : Nat) (t : Trit) (rest acc : Trits) :
    Trits.shiftAdd n a i (t :: rest) acc = Trits.shiftAdd n a (i + 1) rest (Trits.addDigit n a i t acc) := by
  cases t <;> rfl

section
variable {n : Nat} {acc pp : Trits} (hacc : acc.length = n)
include hacc

theorem Trits.length_eq_length_sext (hpp : pp.length ≤ n) : acc.length = (Trits.sext n pp).length := by
  rw [Trits.length_sext, max_eq_left hpp, hacc]

theorem Trits.length_accumulate (hpp : pp.length ≤ n) : (Trits.accumulate n acc pp).length = n :=
  (Trits.length_ripple_zip (Trits.length_eq_length_sext hacc hpp) .zero).trans hacc

/-- Only the carry out is lost, whose weight is `3^n`. -/
theorem Trits.int_accumulate (hpp : pp.length ≤ n) :
    Trits.int (Trits.accumulate n acc pp) ≡ Trits.int acc + Trits.int pp [ZMOD 3 ^ n] := by
  have value := Trits.int_ripple_zip (Trits.length_eq_length_sext hacc hpp) .zero
  rw [hacc, Trits.int_sext] at value
  refine Int.modEq_iff_dvd.2 ⟨(Trits.ripple (acc.zip (Trits.sext n pp)) .zero).2.toInt, ?_⟩
  simp only [Trits.accumulate, Trit.toInt] at value ⊢
  linarith

variable {a : Trits} {i : Nat}

theorem Trits.int_accumulate_shifted (hn : a.length + i ≤ n) :
    Trits.int (Trits.accumulate n acc (Trits.concat a (Trits.zeros i))) ≡ Trits.int acc + 3 ^ i * Trits.int a
      [ZMOD 3 ^ n] := by
  have shifted : Trits.int (Trits.concat a (Trits.zeros i)) = 3 ^ i * Trits.int a := by
    rw [Trits.concat_eq, Trits.int_append, Trits.int_zeros, Trits.length_zeros, zero_add]
  exact shifted ▸ Trits.int_accumulate hacc (by simpa using hn)

variable (t : Trit)

theorem Trits.length_addDigit (hn : a.length + i ≤ n) : (Trits.addDigit n a i t acc).length = n := by
  cases t with
  | zero => exact hacc
  | positive => exact Trits.length_accumulate hacc (by simpa using hn)
  | negative => exact Trits.length_accumulate hacc (by simpa using hn)

theorem Trits.int_addDigit (hn : a.length + i ≤ n) :
    Trits.int (Trits.addDigit n a i t acc) ≡ Trits.int acc + 3 ^ i * (t.toInt * Trits.int a) [ZMOD 3 ^ n] := by
  cases t with
  | zero => simp [Trits.addDigit, Trit.toInt]
  | positive => simpa [Trits.addDigit, Trit.toInt] using Trits.int_accumulate_shifted hacc hn
  | negative =>
    simpa [Trits.addDigit, Trit.toInt] using
      Trits.int_accumulate_shifted hacc (a := Trits.negate a) (by rwa [Trits.length_negate])

end

/-- The loop from position `i` on adds `a` times the remaining digits, shifted by `i`. -/
theorem Trits.shiftAdd_spec {n : Nat} {a : Trits} (b : Trits) : ∀ {i : Nat} {acc : Trits}, acc.length = n →
    a.length + (i + b.length) ≤ n → (Trits.shiftAdd n a i b acc).length = n ∧
      Trits.int (Trits.shiftAdd n a i b acc) ≡ Trits.int acc + 3 ^ i * (Trits.int a * Trits.int b) [ZMOD 3 ^ n] := by
  induction b with
  | nil => intro i acc hacc _; exact ⟨hacc, by simp [Trits.shiftAdd]⟩
  | cons t rest ih =>
    intro i acc hacc hn
    rw [List.length_cons] at hn
    have here : a.length + i ≤ n := by omega
    obtain ⟨length, value⟩ := ih (Trits.length_addDigit hacc t here) (i := i + 1) (by omega)
    have digits : Trits.int acc + 3 ^ i * (Trits.int a * Trits.int (t :: rest))
        = Trits.int acc + 3 ^ i * (t.toInt * Trits.int a) + 3 ^ (i + 1) * (Trits.int a * Trits.int rest) := by
      rw [Trits.int_cons, pow_succ]
      ring
    rw [Trits.shiftAdd_cons, digits]
    exact ⟨length, value.trans ((Trits.int_addDigit hacc t here).add_right _)⟩

/-- A value that fits in `n` trits is determined by its residue modulo `3^n` (R152). -/
theorem Trits.eq_toTrits_of_modEq {t : Trits} {n : Nat} {v : Int} (ht : t.length = n)
    (hv : Trits.int t ≡ v [ZMOD 3 ^ n]) (fits : v.natAbs ≤ maxPos n) : t = toTrits v n := by
  obtain ⟨k, hk⟩ := Int.modEq_iff_dvd.1 hv
  have split : v = k * 3 ^ n + Trits.int t := by linarith
  have none : k = 0 := (Trits.natAbs_le_maxPos_iff ht k).1 (split ▸ fits)
  rw [split, none, zero_mul, zero_add, toTrits_int ht]

/-- Settles O12: the loop's result has the product's residue modulo `3^(len(a)+len(b))`, and the product fits. -/
theorem shiftAndAddMultipliesExactly : Obligations.ShiftAndAddMultipliesExactly := by
  intro a b
  obtain ⟨length, residue⟩ := Trits.shiftAdd_spec (a := a) b (i := 0)
    (Trits.length_zeros (a.length + b.length)) (by omega)
  rw [Trits.int_zeros, pow_zero, one_mul, zero_add] at residue
  have product := Trits.eq_toTrits_of_modEq length residue (Trits.natAbs_int_mul_le_maxPos a b)
  exact ⟨product, length, (congrArg Trits.int product).trans (int_toTrits ..)⟩

end Sys2Proof
end

section
/-! The text form of a sequence (R133, R134): a character is a trit's or it is no trit's at all. -/

namespace Sys2Proof

theorem Trit.ofChar_eq_some_iff {c : Char} {t : Trit} : Trit.ofChar c = some t ↔ t.toChar = c := by
  constructor
  · intro h
    unfold Trit.ofChar at h
    split_ifs at h with isMinus isZero isPlus <;> cases h
    exacts [isMinus.symm, isZero.symm, isPlus.symm]
  · rintro rfl
    exact Asm.ofChar_toChar t

theorem Trit.ofChar_eq_none_iff {c : Char} : Trit.ofChar c = none ↔ c ≠ '-' ∧ c ≠ '0' ∧ c ≠ '+' := by
  simp [Trit.ofChar, ite_eq_iff]

theorem mapM_ofChar_eq_some_iff {s : List Char} {t : Trits} :
    s.mapM Trit.ofChar = some t ↔ t.map Trit.toChar = s := by
  constructor
  · induction s generalizing t with
    | nil => simp
    | cons c s ih =>
      simp only [List.mapM_cons, Option.bind_eq_bind, Option.bind_eq_some_iff, Option.pure_def, Option.some.injEq]
      rintro ⟨x, hx, u, hu, rfl⟩
      rw [List.map_cons, Trit.ofChar_eq_some_iff.1 hx, ih hu]
  · rintro rfl
    exact Asm.mapM_ofChar_toChar t

theorem mapM_ofChar_eq_none_iff {s : List Char} : s.mapM Trit.ofChar = none ↔ ∃ c ∈ s, Trit.ofChar c = none := by
  induction s with
  | nil => simp
  | cons c s ih =>
    simp only [List.mapM_cons, List.mem_cons, exists_eq_or_imp, ← ih]
    cases Trit.ofChar c with
    | none => simp
    | some x => cases s.mapM Trit.ofChar <;> simp

theorem Trits.ofChars_eq_ok_iff {s : List Char} {t : Trits} : Trits.ofChars s = .ok t ↔ Trits.toChars t = s := by
  rw [Trits.toChars, List.reverse_eq_iff, ← mapM_ofChar_eq_some_iff, Trits.ofChars]
  cases s.reverse.mapM Trit.ofChar <;> simp

theorem Trits.ofChars_eq_error_iff {s : List Char} :
    Trits.ofChars s = .error .decodeError ↔ ∃ c ∈ s, Trit.ofChar c = none := by
  simp only [← List.mem_reverse (as := s), ← mapM_ofChar_eq_none_iff]
  rw [Trits.ofChars]
  cases s.reverse.mapM Trit.ofChar <;> simp

/-- Settles O14: a text parses exactly when every character is a trit's, and then prints back as itself. -/
theorem textFormRoundTrips : Obligations.TextFormRoundTrips := by
  refine ⟨Asm.ofChars_toChars, fun s t h => ?_, fun s => ?_⟩
  · have printed := Trits.ofChars_eq_ok_iff.1 h
    exact ⟨printed, by simp [← printed, Trits.toChars]⟩
  · simp only [Trits.ofChars_eq_error_iff, Trit.ofChar_eq_none_iff]

end Sys2Proof
end

section
/-! The word adder and the word multiplier (R125, R129): in both, the overflow output says that nothing stands above the
low `n` trits. -/

namespace Sys2Proof.Machine

/-- Settles O16: the ripple chain keeps the value, so that the sum fits exactly when the carry out is ZERO. -/
theorem wordAdderCarryEquation : Obligations.WordAdderCarryEquation := by
  intro n a b cin ha hb
  have value : a.int + b.int + cin.toInt = (addw a b cin).cout.toInt * 3 ^ n + (addw a b cin).sum.int :=
    ha ▸ Trits.int_ripple_zip (ha.trans hb.symm) cin
  have length : (addw a b cin).sum.trits.length = n := by rw [length_addw, ha, hb, min_self]
  refine ⟨value, length, ?_, by simp [adderOverflow]⟩
  rw [value, Word.int, Trits.natAbs_le_maxPos_iff length, Trit.toInt_eq_zero]
  simp [adderOverflow]

section
variable {n : Nat} {a b : Word} (ha : a.trits.length = n) (hb : b.trits.length = n)

theorem multiplierOverflow_eq_false_iff (r : MultiplierOut) :
    multiplierOverflow r = false ↔ r.hi = Trits.zeros r.hi.length := by
  rw [multiplierOverflow, Bool.not_eq_false', Trits.isZero_iff]

theorem mulw_p_eq_concat (a b : Word) : (mulw a b).p = Trits.concat (mulw a b).hi (mulw a b).lo.trits :=
  (List.take_append_drop ..).symm

include ha

theorem length_mulw_lo_of_length : (mulw a b).lo.trits.length = n := (length_mulw_lo a b).trans ha

/-- The product is its high half at the weight `3^n` and its low half (R129). -/
theorem int_mulw_halves :
    a.int * b.int = Trits.int (mulw a b).hi * 3 ^ n + (mulw a b).lo.int := by
  calc
    a.int * b.int = Trits.int (mulw a b).p := (int_toTrits ..).symm
    _ = Trits.int (mulw a b).lo.trits + 3 ^ n * Trits.int (mulw a b).hi := by
      rw [mulw_p_eq_concat, Trits.concat_eq, Trits.int_append, length_mulw_lo, ha]
    _ = _ := by rw [add_comm, mul_comm]; rfl

/-- The product fits in `n` trits exactly when the overflow output is false. -/
theorem mulw_fits_iff : (a.int * b.int).natAbs ≤ maxPos n ↔ multiplierOverflow (mulw a b) = false := by
  rw [int_mulw_halves ha, Word.int, Trits.natAbs_le_maxPos_iff (length_mulw_lo_of_length ha), Trits.int_eq_zero_iff,
    multiplierOverflow_eq_false_iff]

/-- The low half is the product when nothing stands above it (R129). -/
theorem int_mulw_lo (h : multiplierOverflow (mulw a b) = false) : (mulw a b).lo.int = a.int * b.int := by
  rw [int_mulw_halves ha (b := b), Trits.int_eq_zero_iff.2 ((multiplierOverflow_eq_false_iff _).1 h), zero_mul,
    zero_add]

include hb

theorem mulw_p : (mulw a b).p = toTrits (a.int * b.int) (2 * n) := by
  rw [mulw, ha, hb, two_mul]

theorem length_mulw_p : (mulw a b).p.length = 2 * n := by
  rw [mulw_p ha hb]
  apply length_toTrits
  have fits := Trits.natAbs_int_mul_le_maxPos a.trits b.trits
  rw [ha, hb, ← two_mul] at fits
  exact decide_eq_true fits

theorem length_mulw_hi : (mulw a b).hi.length = n := by
  have length := length_mulw_p ha hb
  rw [mulw_p_eq_concat, Trits.length_concat, length_mulw_lo, ha] at length
  omega

theorem multiplierOverflow_mulw : multiplierOverflow (mulw a b) = true ↔ (mulw a b).hi ≠ Trits.zeros n := by
  rw [Ne, ← length_mulw_hi ha hb, ← multiplierOverflow_eq_false_iff, Bool.not_eq_false]

end

/-- Settles O17: the product fits in `n` trits exactly when `hi` is zero, and `lo` always does. -/
theorem wordMultiplierOverflowIsExact : Obligations.WordMultiplierOverflowIsExact := by
  intro n a b ha hb
  have lowLength : (mulw a b).lo.trits.length = n := length_mulw_lo_of_length ha
  refine ⟨mulw_p ha hb, length_mulw_p ha hb, mulw_p_eq_concat a b, lowLength, multiplierOverflow_mulw ha hb,
    int_mulw_lo ha, fun overflow => ?_⟩
  have large : maxPos n < (a.int * b.int).natAbs :=
    Nat.lt_of_not_le fun fits => by simp [(mulw_fits_iff ha).1 fits] at overflow
  have small : (mulw a b).lo.int.natAbs ≤ maxPos n := lowLength ▸ (mulw a b).lo.trits.natAbs_int_le_maxPos
  exact ⟨large, fun same => large.not_ge (same ▸ small)⟩

end Sys2Proof.Machine
end

section
/-! The signed view (42_integer.md R150 to R155): `Int` as a sum and as a bijection at each length, and the canonical
form. A sequence whose most significant trit is ZERO has the value of a shorter one. -/

namespace Sys2Proof

/-- Settles O3: a trit put below a sequence adds its own value and multiplies every other weight by 3. -/
theorem intIsTheWeightedSum : Obligations.IntIsTheWeightedSum := by
  intro t
  induction t with
  | nil => rfl
  | cons x rest ih =>
    rw [Trits.int_cons, ih, ← List.sum_map_mul_left, List.length_cons, List.range_succ_eq_map, List.map_cons,
      List.sum_cons, List.map_map]
    have weights : (fun i => ((x :: rest).getD i .zero).toInt * 3 ^ i) ∘ Nat.succ
        = fun i => 3 * ((rest.getD i .zero).toInt * 3 ^ i) := by
      funext i
      rw [Function.comp_apply, List.getD_cons_succ, pow_succ]
      ring
    rw [weights, List.getD_cons_zero, pow_zero, mul_one]

/-- Settles O4: `Int` takes `to_trits` back, and at a fixed length no other sequence has the same value. -/
theorem intConversionRoundTrips : Obligations.IntConversionRoundTrips :=
  ⟨fun _ => toTrits_int rfl, int_toTrits⟩

/-- Settles O5: a value in the range is the `Int` of its conversion, which has `n` trits. -/
theorem intIsABijectionAtFixedWidth : Obligations.IntIsABijectionAtFixedWidth := by
  refine ⟨fun t => ?range, fun _ _ => Trits.int_injective, fun v n low high => ?surjective⟩
  case range =>
    have bound := t.natAbs_int_le_maxPos
    omega
  case surjective => exact ⟨toTrits v n, length_toTrits (decide_eq_true (by omega)), int_toTrits v n⟩

theorem length_canon_le_iff (v : Int) (n : Nat) : (canon v).length ≤ n ↔ v.natAbs ≤ maxPos n := by
  refine ⟨fun short => ?_, length_canon_le⟩
  have padded : (toTrits v n).length = n := (Trits.length_sext n (canon v)).trans (max_eq_left short)
  simpa [padded] using (toTrits v n).natAbs_int_le_maxPos

/-- No sequence of the same value is shorter than the canonical one (R153). -/
theorem length_canon_int_le (t : Trits) : (canon (Trits.int t)).length ≤ t.length :=
  length_canon_le t.natAbs_int_le_maxPos

/-- A ZERO on top could be dropped, which would leave a shorter sequence of the same value (R155). -/
theorem getLast?_canon_ne_zero (v : Int) : (canon v).getLast? ≠ some .zero := by
  intro leadingZero
  obtain ⟨low, split⟩ := List.getLast?_eq_some_iff.1 leadingZero
  have value : Trits.int low = v := by
    rw [← int_canon v, split, Trits.int_append]
    simp [Trit.toInt]
  have shortest := length_canon_int_le low
  rw [value, split, List.length_append, List.length_singleton] at shortest
  omega

/-- Settles O6: the length bound is exact, and a shorter sequence of the same value would break it. -/
theorem canonIsTheShortestForm : Obligations.CanonIsTheShortestForm := fun v =>
  ⟨int_canon v, fun t value => value ▸ length_canon_int_le t, getLast?_canon_ne_zero v, length_canon_le_iff v⟩

end Sys2Proof
end

section
/-! The unsigned view (R158, R159, R161) and its arithmetic (R165): `UInt` is `Int` moved up by `MAXPOS(n)`, so that
what holds of `Int` at a fixed length holds of `UInt` too. -/

namespace Sys2Proof

/-- The digit of a trit is its value plus 1, and `MAXPOS(n)` is the sequence of `n` digits 1 (R161). -/
theorem Trits.uint_eq (t : Trits) : (Trits.uint t : Int) = Trits.int t + maxPos t.length := by
  induction t with
  | nil => rfl
  | cons x rest ih =>
    have digit := x.toInt_bounds
    rw [Trits.uint, Trits.int_cons, List.length_cons, maxPos_succ]
    push_cast [Int.toNat_of_nonneg (show 0 ≤ x.toInt + 1 by omega), ih]
    ring

theorem Trits.uint_injective {t u : Trits} (length : t.length = u.length) (same : Trits.uint t = Trits.uint u) :
    t = u := by
  have tValue := t.uint_eq
  have uValue := u.uint_eq
  rw [length] at tValue
  exact Trits.int_injective length (by omega)

theorem Trits.uint_lt_three_pow (t : Trits) : Trits.uint t < 3 ^ t.length := by
  have value := t.uint_eq
  have bound := t.natAbs_int_le_maxPos
  rw [three_pow_eq]
  omega

@[simp] theorem length_utritsLoop (n v : Nat) : (utritsLoop n v).length = n := by
  induction n generalizing v with
  | zero => rfl
  | succ n ih => rw [utritsLoop, List.length_cons, ih]

/-- The `n` low digits of a number that has no others (R159). -/
theorem uint_utritsLoop {n v : Nat} (h : v < 3 ^ n) : Trits.uint (utritsLoop n v) = v := by
  induction n generalizing v with
  | zero =>
    rw [pow_zero] at h
    rw [utritsLoop, Trits.uint]
    omega
  | succ n ih =>
    rw [pow_succ] at h
    rw [utritsLoop, Trits.uint, ih (by omega), Trit.toInt_ofSign (by omega)]
    omega

theorem utritsLoop_uint (t : Trits) : utritsLoop t.length (Trits.uint t) = t :=
  Trits.uint_injective (length_utritsLoop ..) (uint_utritsLoop t.uint_lt_three_pow)

theorem toUtrits_natCast {n v : Nat} (h : v < 3 ^ n) : toUtrits v n = .ok (utritsLoop n v) :=
  if_pos ⟨by omega, by omega⟩

/-- Within the range the conversion is an `n`-trit sequence of that `UInt` value (R159). -/
theorem toUtrits_spec {v : Int} {n : Nat} (low : 0 ≤ v) (high : v ≤ (3 : Int) ^ n - 1) :
    ∃ t : Trits, toUtrits v n = .ok t ∧ t.length = n ∧ (Trits.uint t : Int) = v := by
  lift v to Nat using low
  have inRange : v < 3 ^ n := by exact_mod_cast Int.lt_of_le_sub_one high
  exact ⟨_, toUtrits_natCast inRange, length_utritsLoop n v, congrArg _ (uint_utritsLoop inRange)⟩

theorem toUtrits_overflow {v : Int} {n : Nat} (h : v < 0 ∨ (3 : Int) ^ n ≤ v) :
    toUtrits v n = .error .overflowError := by
  have positive : 0 < 3 ^ n := by positivity
  have power : ((3 ^ n : Nat) : Int) = 3 ^ n := Nat.cast_pow 3 n
  exact if_neg (by omega)

/-- Settles O7: `UInt` is `Int` moved by `MAXPOS`, so it is injective at each length and inverse to the digit loop. -/
theorem unsignedViewRoundTrips : Obligations.UnsignedViewRoundTrips := by
  refine ⟨Trits.uint_eq, fun t => ?roundTrip, fun _ _ => toUtrits_spec, fun _ _ => toUtrits_overflow⟩
  rw [toUtrits_natCast t.uint_lt_three_pow, utritsLoop_uint]

/-- A NEGATIVE trit is the digit 0, and such digits on top add nothing (R165). -/
theorem Trits.uint_append_negative (t : Trits) (k : Nat) :
    Trits.uint (t ++ List.replicate k .negative) = Trits.uint t := by
  induction t with
  | nil =>
    induction k with
    | zero => rfl
    | succ k ih => exact (zero_add _).trans (congrArg (3 * ·) ih)
  | cons x rest ih => rw [List.cons_append, Trits.uint, ih, Trits.uint]

@[simp] theorem Trits.uint_uext (n : Nat) (t : Trits) : Trits.uint (Trits.uext n t) = Trits.uint t :=
  Trits.uint_append_negative t _

/-- Settles O15: the three operations are `uintOp` of their integer operation, whose result `to_utrits` converts. -/
theorem unsignedArithmeticIsByValue : Obligations.UnsignedArithmeticIsByValue := by
  intro a b op f operation
  have byValue : f a b = Trits.uintOp op a b := by
    rcases operation with ⟨rfl, rfl⟩ | ⟨rfl, rfl⟩ | ⟨rfl, rfl⟩ <;> rfl
  rw [byValue]
  exact ⟨toUtrits_spec, toUtrits_overflow, Trits.uint_uext _ a, Trits.uint_uext _ b⟩

end Sys2Proof
end

section
/-! The sign and the comparisons (R160, R163, R164): the trits below the most significant nonzero one cannot outweigh
it. -/

namespace Sys2Proof

theorem Trits.sign_cons_of_zero {rest : Trits} (x : Trit) (h : Trits.sign rest = .zero) :
    Trits.sign (x :: rest) = x := by
  rw [Trits.sign, h]

theorem Trits.sign_cons_of_ne_zero {rest : Trits} (x : Trit) (h : Trits.sign rest ≠ .zero) :
    Trits.sign (x :: rest) = Trits.sign rest := by
  rw [Trits.sign]
  split
  next zero => exact absurd zero h
  next => rfl

theorem Trit.sign_toInt (t : Trit) : t.toInt.sign = t.toInt := by cases t <;> rfl

/-- One trit does not outweigh a nonzero multiple of 3. -/
theorem Trit.sign_add_three_mul (x : Trit) {v : Int} (h : v ≠ 0) : (x.toInt + 3 * v).sign = v.sign := by
  have digit := x.toInt_bounds
  rcases lt_or_gt_of_ne h with negative | positive
  · rw [Int.sign_eq_neg_one_of_neg negative, Int.sign_eq_neg_one_of_neg (by omega)]
  · rw [Int.sign_eq_one_of_pos positive, Int.sign_eq_one_of_pos (by omega)]

theorem Trits.toInt_sign (t : Trits) : (Trits.sign t).toInt = (Trits.int t).sign := by
  induction t with
  | nil => rfl
  | cons x rest ih =>
    rw [Trits.int_cons]
    by_cases zero : Trits.sign rest = .zero
    · have higher : Trits.int rest = 0 := Int.sign_eq_zero_iff_zero.1 (ih.symm.trans (by rw [zero]; rfl))
      rw [Trits.sign_cons_of_zero x zero, higher, mul_zero, add_zero, Trit.sign_toInt]
    · have higher : Trits.int rest ≠ 0 := by
        rwa [Ne, ← Int.sign_eq_zero_iff_zero, ← ih, Trit.toInt_eq_zero]
      rw [Trits.sign_cons_of_ne_zero x zero, ih, Trit.sign_add_three_mul x higher]

theorem Trits.sign_eq_zero_iff (t : Trits) : Trits.sign t = .zero ↔ t = Trits.zeros t.length := by
  rw [← Trit.toInt_eq_zero, Trits.toInt_sign, Int.sign_eq_zero_iff_zero, Trits.int_eq_zero_iff]

/-- Above the trit that the sign is, all trits are ZERO (R160). -/
theorem Trits.eq_append_sign {t : Trits} (h : Trits.sign t ≠ .zero) :
    ∃ (low : Trits) (k : Nat), t = low ++ [Trits.sign t] ++ Trits.zeros k := by
  induction t with
  | nil => exact absurd rfl h
  | cons x rest ih =>
    by_cases zero : Trits.sign rest = .zero
    · refine ⟨[], rest.length, ?_⟩
      rw [Trits.sign_cons_of_zero x zero, ← (Trits.sign_eq_zero_iff rest).1 zero]
      rfl
    · obtain ⟨low, k, split⟩ := ih zero
      refine ⟨x :: low, k, ?_⟩
      rw [Trits.sign_cons_of_ne_zero x zero]
      exact congrArg (x :: ·) split

/-- Settles O8: by induction from the least significant trit, which counts only under trits that are all ZERO. -/
theorem signIsTheSignOfInt : Obligations.SignIsTheSignOfInt := fun t =>
  ⟨t.toInt_sign, t.sign_eq_zero_iff, Trits.eq_append_sign⟩

theorem Trits.int_subtract (a b : Trits) : Trits.int (Trits.subtract a b) = Trits.int a - Trits.int b := by
  obtain ⟨value, -⟩ := sequenceAddIsExact a (Trits.negate b)
  rw [Trits.subtract, value, Trits.int_negate, sub_eq_add_neg]

theorem Trit.toInt_ofSign_eq_sign (v : Int) : (Trit.ofSign v).toInt = v.sign := by
  unfold Trit.ofSign
  split_ifs with negative zero
  · exact (Int.sign_eq_neg_one_of_neg negative).symm
  · rw [zero]; rfl
  · exact (Int.sign_eq_one_of_pos (by omega)).symm

/-- Settles O9: the sign of the sequence difference is that of its `Int`, which is the difference of the two. -/
theorem compareReturnsTheSignOfTheDifference : Obligations.CompareReturnsTheSignOfTheDifference := by
  intro a b
  refine ⟨?_, Trit.toInt_ofSign_eq_sign _⟩
  rw [Trits.compare, Trits.toInt_sign, Trits.int_subtract]

end Sys2Proof
end

section
/-! Fixed-width arithmetic (R166): each operation is the register write check of R180 on the exact result. -/

namespace Sys2Proof

open Machine

theorem Word.ofInt_int {w : Word} {n : Nat} (h : w.trits.length = n) : Word.ofInt n w.int = w :=
  congrArg Word.mk (toTrits_int h)

@[simp] theorem int_negw (a : Word) : (negw a).int = -a.int := Trits.int_negate a.trits

/-- A unit with an exact overflow output, whose result is then the value itself, performs the check of R180. -/
theorem ite_eq_regWord {n : Nat} {v : Int} {result : Word} {small : Prop} [Decidable small]
    (fits : v.natAbs ≤ maxPos n ↔ small) (length : result.trits.length = n) (value : small → result.int = v) :
    (if small then .ok result else .error .overflowError) = regWord n v := by
  split
  next noOverflow => rw [regWord_ok (fits.2 noOverflow), ← value noOverflow, Word.ofInt_int length]
  next overflow => rw [regWord_overflow (mt fits.1 overflow)]

section
variable {n : Nat} {a b : Word} (ha : a.trits.length = n) (hb : b.trits.length = n)
include ha

/-- The multiplier answers its low half exactly when that is the whole product (R129). -/
theorem Word.multiply_eq_regWord : Word.multiply a b = regWord n (a.int * b.int) := by
  have noOverflow : Trits.isZero (mulw a b).hi = true ↔ multiplierOverflow (mulw a b) = false := by
    simp [multiplierOverflow]
  exact ite_eq_regWord ((mulw_fits_iff ha).trans noOverflow.symm) (length_mulw_lo_of_length ha)
    fun zero => int_mulw_lo ha (noOverflow.1 zero)

include hb

/-- The adder answers its sum exactly when no carry stands above it (R125). -/
theorem Word.add_eq_regWord : Word.add a b = regWord n (a.int + b.int) := by
  obtain ⟨value, length, fits, -⟩ := wordAdderCarryEquation n a b .zero ha hb
  rw [Trit.toInt, add_zero] at value fits
  have noOverflow : adderOverflow (addw a b .zero) = false ↔ (addw a b .zero).cout = .zero := by simp [adderOverflow]
  refine ite_eq_regWord (fits.symm.trans noOverflow) length fun noCarry => ?_
  rw [value, noCarry, Trit.toInt, zero_mul, zero_add]

theorem Word.subtract_eq_regWord : Word.subtract a b = regWord n (a.int - b.int) := by
  rw [Word.subtract, Word.add_eq_regWord ha ((length_negw b).trans hb), int_negw, sub_eq_add_neg]

end

/-- Settles O20: the check writes a result that fits and rejects every other. -/
theorem fixedWidthArithmeticIsExactOrRejected : Obligations.FixedWidthArithmeticIsExactOrRejected := by
  intro n a b ha hb
  rw [Word.add_eq_regWord ha hb, Word.subtract_eq_regWord ha hb, Word.multiply_eq_regWord ha]
  have rejected : ∀ v : Int, maxPos n < v.natAbs → regWord n v = .error .overflowError :=
    fun _ large => regWord_overflow large.not_ge
  exact ⟨regWord_ok, rejected _, regWord_ok, rejected _, regWord_ok, rejected _⟩

end Sys2Proof
end

section
/-! SUPPORT. The register write check of the library (R180, R181). -/

namespace Sys2Proof

open Machine

theorem writeRegister_ok {n : Nat} {v : Int} (old : Word) (h : v.natAbs ≤ maxPos n) :
    writeRegister n old v = (Word.ofInt n v, none) := by
  rw [writeRegister, regWord_ok h]

theorem writeRegister_overflow {n : Nat} {v : Int} (old : Word) (h : ¬ v.natAbs ≤ maxPos n) :
    writeRegister n old v = (old, some .overflowError) := by
  rw [writeRegister, regWord_overflow h]

/-- Settles O19: the check of R180 by value; a sequence of `n` trits is the conversion of its own value. -/
theorem registerWriteRejectsOverflow : Obligations.RegisterWriteRejectsOverflow := by
  intro n old v t
  refine ⟨fun small => ⟨writeRegister_ok old small, length_toTrits (decide_eq_true small), int_toTrits v n⟩,
    fun large => writeRegister_overflow old large.not_ge, rfl, fun length => ?_⟩
  have small : (Trits.int t).natAbs ≤ maxPos n := length ▸ t.natAbs_int_le_maxPos
  rw [writeRegisterTrits, writeRegister_ok old small, Word.ofInt, toTrits_int length]

end Sys2Proof
end

section
/-! SUPPORT. The step by run state (R183 to R185, R191, R192): a stopped machine keeps its state, and only a Faulted one
fails the call. -/

namespace Sys2Proof.Machine

variable {s : State}

theorem fetchDecode_ok {i : Instr} (inRange : AddressInRange s s.pc.int)
    (hd : decode s.cfg.width (s.memRead s.pc.int.toNat) = .instr i) : fetchDecode s = .ok i := by
  rw [fetchDecode, if_pos ((addressValid_iff s _).2 inRange), hd]

theorem cycle_of_fetchDecode_ok {i : Instr} (h : fetchDecode s = .ok i) : cycle s = exec i s := by
  rw [cycle, h]

theorem step_ready (h : s.runState = .ready) : step s = cycle (s.setRunState .running) := by
  rw [step, h]

theorem step_running (h : s.runState = .running) : step s = cycle s := by
  rw [step, h]

theorem step_halted (h : s.runState = .halted) : step s = .next s := by
  rw [step, h]

theorem step_faulted (h : s.runState = .faulted) : step s = .fault .stepAfterFault := by
  rw [step, h]

/-- Settles O28: the cycle of the machine in `Running` fetches what the machine itself would fetch. -/
theorem stepRunsTheDecodedInstruction : Obligations.StepRunsTheDecodedInstruction := by
  intro s i inRange hd
  have fetched := fetchDecode_ok inRange hd
  refine ⟨fun running => ?_, fun ready => ?_⟩
  · rw [step_running running, cycle_of_fetchDecode_ok fetched]
  · rw [step_ready ready, cycle_of_fetchDecode_ok ((s.setRunState_fetchDecode .running).trans fetched)]

/-- Everything an instruction can do: halt, take a fault, or commit its write request. -/
theorem exec_cases (s : State) (i : Instr) :
    exec i s = .next (s.setRunState .halted) ∨
    (∃ r, exec i s = .next (takeFault s r)) ∨
    (∃ w p, requestOf s i = .ok w ∧ exec i s = .next (commit s w p)) := by
  by_cases hi : i = .halt
  · subst hi
    exact .inl (exec_halt s)
  rw [exec_eq_withRegisters s hi]
  rcases withRegisters_cases s i.registerFields (requestOf s i) with ⟨-, e⟩ | ⟨-, e⟩
  · exact .inr (.inl ⟨_, e⟩)
  rw [e]
  rcases finish_cases s (requestOf s i) with ⟨r, -, e⟩ | ⟨_, r, -, -, e⟩ | ⟨w, p, hq, -, e⟩
  · exact .inr (.inl ⟨r, e⟩)
  · exact .inr (.inl ⟨r, e⟩)
  · exact .inr (.inr ⟨w, p, hq, e⟩)

/-- Every instruction answers a next state. -/
theorem exec_next (s : State) (i : Instr) : ∃ t, exec i s = .next t := by
  rcases exec_cases s i with e | ⟨_, e⟩ | ⟨_, _, -, e⟩ <;> exact ⟨_, e⟩

theorem step_next (h : s.runState ≠ .faulted) : ∃ t, step s = .next t := by
  rcases step_cases s with ⟨faulted, -⟩ | ⟨-, e⟩ | ⟨-, r, -, e⟩ | ⟨-, i, -, e⟩
  · exact absurd faulted h
  · exact ⟨_, e⟩
  · exact ⟨_, e⟩
  · exact e ▸ exec_next _ i

/-- The call fails exactly in `Faulted` (R184). -/
theorem step_eq_stepAfterFault_iff : step s = .fault .stepAfterFault ↔ s.runState = .faulted := by
  refine ⟨fun failed => by_contra fun notFaulted => ?_, step_faulted⟩
  obtain ⟨t, e⟩ := step_next notFaulted
  cases failed.symm.trans e

theorem stepCall_halted (h : s.runState = .halted) : stepCall s = (.ok, s) := by
  rw [stepCall, step_halted h]

theorem stepCall_faulted (h : s.runState = .faulted) : stepCall s = (.stepAfterFault, s) := by
  rw [stepCall, step_faulted h]

end Sys2Proof.Machine
end

section
/-! SUPPORT. `run` as the steps it takes (R193): its loop stops at its bound or where the machine is no longer live. -/

namespace Sys2Proof.Machine

variable {s : State}

theorem State.live_eq_false_iff : s.live = false ↔ s.runState = .halted ∨ s.runState = .faulted := by
  cases h : s.runState <;> simp [State.live, h]

theorem State.ended_of_not_live (h : s.live = false) : s.ended = true := by
  rcases State.live_eq_false_iff.1 h with stopped | stopped <;> simp [State.ended, stopped]

theorem State.runState_ne_faulted_of_live (h : s.live = true) : s.runState ≠ .faulted := fun faulted => by
  simp [State.live_eq_false_iff.2 (.inr faulted)] at h

theorem runLoop_of_not_live (h : s.live = false) (n k : Nat) : runLoop n k s = (k, s) := by
  cases n with
  | zero => rfl
  | succ n => rw [runLoop, h, if_neg Bool.false_ne_true]

theorem runLoop_succ_of_live (h : s.live = true) (n k : Nat) :
    runLoop (n + 1) k s = runLoop n (k + 1) (stepCall s).2 := by
  rw [runLoop, if_pos h]

/-- The loop took no step because the machine is Faulted: the `run` call fails (R193). -/
abbrev RunFails (n : Nat) (s : State) : Prop := (runLoop n 0 s).2.runState = .faulted ∧ (runLoop n 0 s).1 = 0

theorem run_of_fails {n : Nat} (h : RunFails n s) : run n s = (.stepAfterFault, 0, (runLoop n 0 s).2) := if_pos h

theorem run_of_not_fails {n : Nat} (h : ¬ RunFails n s) : run n s = (.ok, runLoop n 0 s) := if_neg h

/-- The number of steps and the state that `run` answers are those of its loop, whatever the call returns. -/
theorem run_snd (n : Nat) (s : State) : (run n s).2 = runLoop n 0 s := by
  by_cases h : RunFails n s
  · have ⟨_, noStep⟩ := h
    rw [run_of_fails h]
    exact Prod.ext noStep.symm rfl
  · rw [run_of_not_fails h]

theorem run_fst_eq_stepAfterFault_iff (n : Nat) (s : State) : (run n s).1 = .stepAfterFault ↔ RunFails n s := by
  by_cases h : RunFails n s
  · exact iff_of_true (by rw [run_of_fails h]) h
  · exact iff_of_false (by rw [run_of_not_fails h]; nofun) h

theorem run_halted (h : s.runState = .halted) (n : Nat) : run n s = (.ok, 0, s) := by
  simp [run, runLoop_of_not_live (State.live_eq_false_iff.2 (.inl h)), h]

theorem run_faulted (h : s.runState = .faulted) (n : Nat) : run n s = (.stepAfterFault, 0, s) := by
  simp [run, runLoop_of_not_live (State.live_eq_false_iff.2 (.inr h)), h]

/-- Settles O31: a stopped machine is a fixed point of the step call, and the loop of a run takes no step from it. -/
theorem stoppedMachinesStayStopped : Obligations.StoppedMachinesStayStopped := by
  intro s n
  refine ⟨fun halted => ?_, fun faulted => ?_⟩
  · have call := stepCall_halted halted
    exact ⟨congrArg Prod.fst call, Function.iterate_fixed (congrArg Prod.snd call) n, run_halted halted n⟩
  · have call := stepCall_faulted faulted
    exact ⟨congrArg Prod.fst call, Function.iterate_fixed (congrArg Prod.snd call) n, run_faulted faulted n⟩

/-- The machine after `j` step calls. -/
abbrev State.after (s : State) (j : Nat) : State := (fun t => (stepCall t).2)^[j] s

theorem State.after_succ (s : State) (j : Nat) : s.after (j + 1) = (stepCall s).2.after j :=
  Function.iterate_succ_apply ..

/-- The loop takes some `j` of its `n` steps, each from a live machine, and fewer than `n` only when it is at a stop. -/
theorem runLoop_spec (n : Nat) : ∀ (k : Nat) (s : State), ∃ j, j ≤ n ∧
    runLoop n k s = (k + j, s.after j) ∧ (∀ i, i < j → (s.after i).live = true) ∧
    (j < n → (s.after j).live = false) := by
  induction n with
  | zero => exact fun k s => ⟨0, le_rfl, rfl, nofun, nofun⟩
  | succ n ih =>
    intro k s
    cases live : s.live with
    | false => exact ⟨0, Nat.zero_le _, runLoop_of_not_live live .., nofun, fun _ => live⟩
    | true =>
      obtain ⟨j, bound, result, before, stop⟩ := ih (k + 1) (stepCall s).2
      refine ⟨j + 1, Nat.succ_le_succ bound, ?_, ?_, fun short => stop (Nat.lt_of_succ_lt_succ short)⟩
      · rw [runLoop_succ_of_live live, result, Nat.add_assoc, Nat.add_comm 1 j, State.after_succ]
      · rintro (_ | i) hi
        · exact live
        · exact before i (Nat.lt_of_succ_lt_succ hi)

/-- A loop that took no step ends where it began, so that the call fails exactly in `Faulted` (R193). -/
theorem runFails_iff {n : Nat} : RunFails n s ↔ s.runState = .faulted := by
  refine ⟨fun ⟨faulted, noStep⟩ => ?_, fun faulted => ?_⟩
  · obtain ⟨j, -, result, -⟩ := runLoop_spec n 0 s
    rw [result] at faulted noStep
    obtain rfl : j = 0 := (Nat.zero_add j).symm.trans noStep
    exact faulted
  · rw [RunFails, runLoop_of_not_live (State.live_eq_false_iff.2 (.inr faulted))]
    exact ⟨faulted, rfl⟩

/-- Settles O32: `run` ends as its loop does, after the steps of the loop. -/
theorem runStopsAtItsBoundOrAtAStop : Obligations.RunStopsAtItsBoundOrAtAStop := by
  intro s n
  obtain ⟨j, bound, result, before, stop⟩ := runLoop_spec n 0 s
  rw [Nat.zero_add] at result
  rw [run_fst_eq_stepAfterFault_iff, runFails_iff, run_snd, result]
  exact ⟨bound, rfl, before, fun short => State.ended_of_not_live (stop short), Iff.rfl⟩

/-- The counter that the loop starts with is added to the number of its steps. -/
theorem runLoop_counter (n : Nat) :
    ∀ (k : Nat) (s : State), runLoop n k s = (k + (runLoop n 0 s).1, (runLoop n 0 s).2) := by
  induction n with
  | zero => exact fun k s => rfl
  | succ n ih =>
    intro k s
    cases live : s.live with
    | false => simp only [runLoop_of_not_live live, Nat.add_zero]
    | true =>
      rw [runLoop_succ_of_live live, runLoop_succ_of_live live, ih (k + 1), ih (0 + 1), Nat.zero_add, Nat.add_assoc]

/-- The loop with `m + n` steps left goes on after `m` of them as the loop with `n` steps left. -/
theorem runLoop_add (m n : Nat) :
    ∀ (k : Nat) (s : State), runLoop (m + n) k s = runLoop n (runLoop m k s).1 (runLoop m k s).2 := by
  induction m with
  | zero => intro k s; rw [Nat.zero_add]; rfl
  | succ m ih =>
    intro k s
    cases live : s.live with
    | false => simp only [runLoop_of_not_live live]
    | true => rw [Nat.succ_add, runLoop_succ_of_live live, runLoop_succ_of_live live, ih]

/-- Settles O33: the loop is split at `m`, and its second part counts from the steps of the first. -/
theorem laterRunContinuesAnEarlierOne : Obligations.LaterRunContinuesAnEarlierOne := by
  intro s m n
  rw [run_snd, run_snd, run_snd, runLoop_add, runLoop_counter n (runLoop m 0 s).1]
  exact ⟨rfl, rfl⟩

end Sys2Proof.Machine
end

section
/-! SUPPORT. What an instruction without a destination register leaves of the registers (R182). -/

namespace Sys2Proof.Machine

variable {s t : State}

theorem jumpRequest_reg {k : Int} {w : Writes} (hq : jumpRequest s k = .ok w) : w.reg = none := by
  rcases jumpRequest_cases s k with ⟨-, e⟩ | ⟨-, e⟩
  · cases e.symm.trans hq
    rfl
  · cases e.symm.trans hq

theorem requestOf_reg_of_no_destination {i : Instr} {w : Writes} (hd : destination i = none)
    (hq : requestOf s i = .ok w) : w.reg = none := by
  cases i with
  | halt =>
    cases hq
    rfl
  | store a k =>
    rcases storeRequest_cases s a k with ⟨-, e⟩ | ⟨-, e⟩
    · cases e.symm.trans hq
      rfl
    · cases e.symm.trans hq
  | jmp k => exact jumpRequest_reg hq
  | js a t kb =>
    rcases jsRequest_cases s a t kb with e | e
    · exact jumpRequest_reg (e.symm.trans hq)
    · cases e.symm.trans hq
      rfl
  | _ => cases hd

@[simp] theorem commitMem_regs (s : State) (q : Option (Nat × Word)) : (commitMem s q).regs = s.regs := by
  cases q <;> rfl

theorem commit_regs_of_no_reg {w : Writes} (h : w.reg = none) (p : Word) : (commit s w p).regs = s.regs := by
  rw [commit, h, State.setPc_regs, commitMem_regs]
  rfl

theorem exec_regs_of_no_destination {i : Instr} (hd : destination i = none) (he : exec i s = .next t) :
    t.regs = s.regs := by
  rcases exec_cases s i with e | ⟨r, e⟩ | ⟨w, p, hq, e⟩
  · cases e.symm.trans he
    rfl
  · cases e.symm.trans he
    rfl
  · cases e.symm.trans he
    exact commit_regs_of_no_reg (requestOf_reg_of_no_destination hd hq) p

/-- At most one register differs between the two states, and if one does, memory is the same in both (R182). -/
abbrev WritesAtMostOne (s t : State) : Prop :=
  (∃ n : Nat, ∀ m : Nat, m ≠ n → t.regs[m]? = s.regs[m]?) ∧
    ((∃ m : Nat, t.regs[m]? ≠ s.regs[m]?) → ∀ b : Nat, t.memRead b = s.memRead b)

theorem writesAtMostOne_of_regs_eq (h : t.regs = s.regs) : WritesAtMostOne s t :=
  ⟨⟨0, fun _ _ => by rw [h]⟩, fun ⟨_, changed⟩ => absurd (by rw [h]) changed⟩

theorem exec_writesAtMostOne {i : Instr} (he : exec i s = .next t) : WritesAtMostOne s t := by
  cases hd : destination i with
  | none => exact writesAtMostOne_of_regs_eq (exec_regs_of_no_destination hd he)
  | some d =>
    obtain ⟨-, -, otherRegs, memory, -⟩ := frameOfRegisterInstructions i d s t hd he
    exact ⟨⟨d.toNat, otherRegs⟩, fun _ => memory⟩

/-- Settles O36: an instruction has a destination register, and then leaves memory alone, or it leaves the registers
alone, as every other step does. -/
theorem oneWritePerStep : Obligations.OneWritePerStep := by
  intro s t ht
  rcases step_cases s with ⟨-, e⟩ | ⟨-, e⟩ | ⟨-, r, -, e⟩ | ⟨-, i, -, e⟩
  · cases e.symm.trans ht
  · cases e.symm.trans ht
    exact writesAtMostOne_of_regs_eq rfl
  · cases e.symm.trans ht
    exact writesAtMostOne_of_regs_eq rfl
  · exact exec_writesAtMostOne (s := s.setRunState .running) (e.symm.trans ht)

end Sys2Proof.Machine
end

section
/-! SUPPORT. The fault of an instruction's own rule against the causes of R304: the results of the adder and the
multiplier, and the operands of a fetched instruction, which always fit in a word. -/

namespace Sys2Proof

theorem maxPos_monotone : Monotone maxPos :=
  monotone_nat_of_le_succ fun n => by rw [maxPos_succ]; omega

theorem natAbs_le_maxPos_of_fits {v : Int} {m n : Nat} (h : fits v m = true) (hmn : m ≤ n) : v.natAbs ≤ maxPos n :=
  (of_decide_eq_true h).trans (maxPos_monotone hmn)

end Sys2Proof

namespace Sys2Proof.Machine

variable {s : State}

theorem signCondition_iff (x : Word) (t : Trit) : signCondition x t = true ↔ x.int.sign = t.toInt := by
  rw [Word.int, ← Trits.toInt_sign]
  exact decide_eq_true_iff.trans ⟨congrArg Trit.toInt, Trit.toInt_injective⟩

/-- The adder's request is the exact sum's word, or `OVERFLOW` when the sum does not fit (R230). -/
theorem adderRequest_cases_of_value (d : Int) {n : Nat} {x y : Word} (hx : x.trits.length = n)
    (hy : y.trits.length = n) :
    ((x.int + y.int).natAbs ≤ maxPos n ∧
      adderRequest d (addw x y .zero) = .ok (Writes.toReg d (addw x y .zero).sum)) ∨
    (¬ (x.int + y.int).natAbs ≤ maxPos n ∧ adderRequest d (addw x y .zero) = .error .overflow) := by
  obtain ⟨-, -, fits, -⟩ := wordAdderCarryEquation n x y .zero hx hy
  rw [Trit.toInt, add_zero] at fits
  cases overflow : adderOverflow (addw x y .zero) with
  | false => exact .inl ⟨fits.1 overflow, by rw [adderRequest, overflow, if_neg Bool.false_ne_true]⟩
  | true => exact .inr ⟨fun small => by simp [fits.2 small] at overflow, by rw [adderRequest, if_pos overflow]⟩

/-- The multiplier's request is the low half, or `OVERFLOW` when the product does not fit (R236). -/
theorem multiplierRequest_cases_of_value (d : Int) {n : Nat} {x : Word} (y : Word) (hx : x.trits.length = n) :
    ((x.int * y.int).natAbs ≤ maxPos n ∧ multiplierRequest d (mulw x y) = .ok (Writes.toReg d (mulw x y).lo)) ∨
    (¬ (x.int * y.int).natAbs ≤ maxPos n ∧ multiplierRequest d (mulw x y) = .error .overflow) := by
  rw [mulw_fits_iff hx]
  cases overflow : multiplierOverflow (mulw x y) with
  | false => exact .inl ⟨rfl, by rw [multiplierRequest, overflow, if_neg Bool.false_ne_true]⟩
  | true => exact .inr ⟨nofun, by rw [multiplierRequest, if_pos overflow]⟩

/-- The instruction that a machine meeting the invariant fetches has operands that fit their fields. -/
theorem State.wf.fetched_wf (h : s.wf) {i : Instr} (hf : fetchDecode s = .ok i) : i.wf s.cfg.width = true := by
  rcases fetchDecode_cases s with ⟨-, e⟩ | ⟨-, why, -, e⟩ | ⟨-, j, hd, e⟩
  · cases e.symm.trans hf
  · cases e.symm.trans hf
  · cases e.symm.trans hf
    obtain ⟨fitting, -⟩ := everyInstructionHasOneEncoding _ _ _ h.nine_le_width (h.length_memRead _) hd
    exact fitting

end Sys2Proof.Machine
end

section
/-! SUPPORT. The order of the causes within one instruction (R305): its own rule, checked between the register fields
and the PC advance, raises the causes 4 and 5. -/

namespace Sys2Proof.Machine

variable {s : State} {i : Instr}

/-- The first cause of R305 among those of an instruction's own rule: the memory operand, then the result. -/
def requestFault (s : State) (i : Instr) : Option FaultCause :=
  if (memoryOperand i).any (fun k => decide (¬ AddressInRange s k)) then some .address
  else if (exactResult s i).any (fun v => decide (¬ FitsWord s v)) then some .overflow
  else none

/-- The rule of `i` raises the fault that `requestFault` names, or without one it answers a request, which redirects the
PC exactly when the instruction does not end with the advance (R187). -/
abbrev RequestMatches (s : State) (i : Instr) : Prop :=
  (∃ r, requestFault s i = some r ∧ requestOf s i = .error r) ∨
    (requestFault s i = none ∧ ∃ w, requestOf s i = .ok w ∧ (w.next = none ↔ usesAdvance s i = true))

theorem requestFault_of_memoryOperand {k : Int} (hm : memoryOperand i = some k) (hr : exactResult s i = none) :
    requestFault s i = if AddressInRange s k then none else some .address := by
  simp only [requestFault, hm, hr, Option.any_some, Option.any_none, decide_eq_true_eq, ite_not, Bool.false_eq_true,
    if_false]

theorem requestFault_of_exactResult {v : Int} (hm : memoryOperand i = none) (hr : exactResult s i = some v) :
    requestFault s i = if FitsWord s v then none else some .overflow := by
  simp only [requestFault, hm, hr, Option.any_some, Option.any_none, decide_eq_true_eq, ite_not, Bool.false_eq_true,
    if_false]

theorem requestMatches_of_cause {holds : Prop} [Decidable holds] {r : FaultCause} {w : Writes}
    (cause : requestFault s i = if holds then none else some r) (hn : w.next = none ↔ usesAdvance s i = true)
    (answers : (holds ∧ requestOf s i = .ok w) ∨ (¬ holds ∧ requestOf s i = .error r)) : RequestMatches s i := by
  rcases answers with ⟨ok, e⟩ | ⟨failed, e⟩
  · exact .inr ⟨cause.trans (if_pos ok), w, e, hn⟩
  · exact .inl ⟨r, cause.trans (if_neg failed), e⟩

/-- A target that fits in a word is written to the PC (R260). -/
theorem jumpRequest_ok {k : Int} (h : FitsWord s k) :
    jumpRequest s k = .ok (Writes.toPc (Word.ofInt s.cfg.width k)) := by
  rw [jumpRequest, checkedWord_ok h]

theorem requestMatches_js (a : Int) (t : Trit) {kb : Int} (h : FitsWord s kb) : RequestMatches s (.js a t kb) := by
  have condition := signCondition_iff (s.reg a) t
  have rule : requestOf s (.js a t kb) = jsRequest s a t kb := rfl
  by_cases taken : (s.reg a).int.sign = t.toInt
  · refine .inr ⟨rfl, Writes.toPc (Word.ofInt s.cfg.width kb), ?_, iff_of_false nofun (by simp [usesAdvance, taken])⟩
    rw [rule, jsRequest, if_pos (condition.2 taken), jumpRequest_ok h]
  · refine .inr ⟨rfl, Writes.nothing, ?_, iff_of_true rfl (by simp [usesAdvance, taken])⟩
    rw [rule, jsRequest, if_neg (mt condition.1 taken)]

/-- The rule of every instruction but HALT is as R305 says, when its operands fit their fields. -/
theorem requestOf_matches (h : s.wf) (fitting : i.wf s.cfg.width = true) (hi : i ≠ .halt) : RequestMatches s i := by
  cases i with
  | halt => exact absurd rfl hi
  | loadi a k =>
    obtain ⟨-, hk⟩ := Bool.and_eq_true_iff.1 fitting
    rcases loadiRequest_cases s a k with ⟨-, e⟩ | ⟨large, -⟩
    · exact .inr ⟨rfl, _, e, iff_of_true rfl rfl⟩
    · exact absurd (natAbs_le_maxPos_of_fits hk (Nat.sub_le ..)) large
  | loadm a k =>
    exact requestMatches_of_cause (requestFault_of_memoryOperand rfl rfl) (iff_of_true rfl rfl)
      (loadmRequest_cases s a k)
  | store a k =>
    exact requestMatches_of_cause (requestFault_of_memoryOperand rfl rfl) (iff_of_true rfl rfl)
      (storeRequest_cases s a k)
  | add a b c =>
    exact requestMatches_of_cause (requestFault_of_exactResult rfl rfl) (iff_of_true rfl rfl)
      (adderRequest_cases_of_value a (h.length_reg b) (h.length_reg c))
  | sub a b c =>
    have answers := adderRequest_cases_of_value a (h.length_reg b) ((length_negw _).trans (h.length_reg c))
    rw [int_negw, ← sub_eq_add_neg] at answers
    exact requestMatches_of_cause (requestFault_of_exactResult rfl rfl) (iff_of_true rfl rfl) answers
  | mul a b c =>
    exact requestMatches_of_cause (requestFault_of_exactResult rfl rfl) (iff_of_true rfl rfl)
      (multiplierRequest_cases_of_value a (s.reg c) (h.length_reg b))
  | move _ _ | neg _ _ | sgn _ _ | and _ _ _ | or _ _ _ => exact .inr ⟨rfl, _, rfl, iff_of_true rfl rfl⟩
  | jmp k =>
    exact .inr ⟨rfl, _, jumpRequest_ok (natAbs_le_maxPos_of_fits fitting (Nat.sub_le ..)), iff_of_false nofun nofun⟩
  | js a t kb =>
    obtain ⟨-, hk⟩ := Bool.and_eq_true_iff.1 fitting
    exact requestMatches_js a t (natAbs_le_maxPos_of_fits hk (Nat.sub_le ..))

theorem firstInstrFault_of_fieldsInvalid (h : ¬ FieldsValid s i.registerFields) :
    firstInstrFault s i = some .address :=
  if_pos h

/-- After the register fields come the instruction's own rule and then the PC advance (R305). -/
theorem firstInstrFault_of_fieldsValid (h : FieldsValid s i.registerFields) :
    firstInstrFault s i =
      (requestFault s i).or (if usesAdvance s i ∧ ¬ PcAdvances s then some .overflow else none) := by
  rw [firstInstrFault, if_neg (not_not_intro h), requestFault]
  split
  · rfl
  · split <;> rfl

theorem nextPc_of_next_eq_none {w : Writes} (h : w.next = none) : nextPc s w = advance s := by
  rw [nextPc, h]

theorem exists_nextPc_ok {w : Writes} (h : w.next = none → PcAdvances s) : ∃ p, nextPc s w = .ok p := by
  cases hn : w.next with
  | none => exact ⟨_, (nextPc_of_next_eq_none hn).trans (advance_ok (h hn))⟩
  | some target => exact ⟨target, by rw [nextPc, hn]⟩

/-- Every instruction but HALT takes its first cause in the order of R305, or without one commits its writes. -/
theorem exec_firstInstrFault_cases (h : s.wf) (fitting : i.wf s.cfg.width = true) (hi : i ≠ .halt) :
    (∃ r, firstInstrFault s i = some r ∧ exec i s = .next (takeFault s r)) ∨
    (firstInstrFault s i = none ∧ ∃ w p, exec i s = .next (commit s w p)) := by
  rw [exec_eq_withRegisters s hi]
  rcases withRegisters_cases s i.registerFields (requestOf s i) with ⟨invalid, e⟩ | ⟨valid, e⟩
  · exact .inl ⟨_, firstInstrFault_of_fieldsInvalid invalid, e⟩
  rw [e, firstInstrFault_of_fieldsValid valid]
  rcases requestOf_matches h fitting hi with ⟨r, hr, hq⟩ | ⟨hr, w, hq, hn⟩
  · exact .inl ⟨r, by rw [hr, Option.some_or], by rw [hq, finish_error]⟩
  rw [hr, hq, Option.none_or]
  by_cases stuck : usesAdvance s i ∧ ¬ PcAdvances s
  · obtain ⟨uses, overflow⟩ := stuck
    have pcFault := (nextPc_of_next_eq_none (hn.2 uses)).trans (advance_overflow overflow)
    exact .inl ⟨_, if_pos ⟨uses, overflow⟩, finish_pcFault pcFault⟩
  · obtain ⟨p, hp⟩ := exists_nextPc_ok fun advancing => by_contra fun overflow => stuck ⟨hn.1 advancing, overflow⟩
    exact .inr ⟨if_neg stuck, w, p, finish_ok hp⟩

end Sys2Proof.Machine
end

section
/-! SUPPORT. The order of the causes over the whole cycle (R189, R305), and the transitions of RUNSTATE (R183). -/

namespace Sys2Proof.Machine

variable {s : State}

theorem firstFault_of_fetchDecode_error {r : FaultCause} (h : fetchDecode s = .error r) : firstFault s = some r := by
  rcases fetchDecode_cases s with ⟨outside, e⟩ | ⟨inRange, why, hd, e⟩ | ⟨-, i, -, e⟩
  · cases e.symm.trans h
    exact if_pos outside
  · cases e.symm.trans h
    rw [firstFault, if_neg (not_not_intro inRange), hd]
  · cases e.symm.trans h

theorem firstFault_of_fetchDecode_ok {i : Instr} (h : fetchDecode s = .ok i) : firstFault s = firstInstrFault s i := by
  rcases fetchDecode_cases s with ⟨-, e⟩ | ⟨-, why, -, e⟩ | ⟨inRange, j, hd, e⟩
  · cases e.symm.trans h
  · cases e.symm.trans h
  · cases e.symm.trans h
    rw [firstFault, if_neg (not_not_intro inRange), hd]

/-- HALT has no register field, operand, result or PC advance that could fault (R266). -/
theorem firstInstrFault_halt (s : State) : firstInstrFault s .halt = none := by
  rw [firstInstrFault_of_fieldsValid fun _ hf => absurd hf List.not_mem_nil]
  rfl

@[simp] theorem commitReg_runState (s : State) (q : Option (Nat × Word)) : (commitReg s q).runState = s.runState := by
  cases q <;> rfl

@[simp] theorem commitMem_runState (s : State) (q : Option (Nat × Word)) : (commitMem s q).runState = s.runState := by
  cases q <;> rfl

@[simp] theorem commit_runState (s : State) (w : Writes) (p : Word) : (commit s w p).runState = s.runState := by
  simp [commit]

@[simp] theorem commitReg_fault (s : State) (q : Option (Nat × Word)) : (commitReg s q).fault = s.fault := by
  cases q <;> rfl

@[simp] theorem commitMem_fault (s : State) (q : Option (Nat × Word)) : (commitMem s q).fault = s.fault := by
  cases q <;> rfl

@[simp] theorem commit_fault (s : State) (w : Writes) (p : Word) : (commit s w p).fault = s.fault := by
  simp [commit]

/-- Everything a step of a live machine can do: take the first cause of R305, or without a cause halt on HALT or commit
the writes of another instruction. -/
theorem step_cases_of_live (h : s.wf) (hl : s.live = true) :
    (∃ r, firstFault s = some r ∧ step s = .next (takeFault (s.setRunState .running) r)) ∨
    (firstFault s = none ∧ fetchDecode s = .ok .halt ∧ step s = .next (s.setRunState .halted)) ∨
    (firstFault s = none ∧ fetchDecode s ≠ .ok .halt ∧
      ∃ w p, step s = .next (commit (s.setRunState .running) w p)) := by
  rcases step_cases s with ⟨faulted, -⟩ | ⟨halted, -⟩ | ⟨-, r, hf, e⟩ | ⟨-, i, hf, e⟩
  · simp [State.live, faulted] at hl
  · simp [State.live, halted] at hl
  · exact .inl ⟨r, firstFault_of_fetchDecode_error hf, e⟩
  have fetched : fetchDecode (s.setRunState .running) = .ok i := (s.setRunState_fetchDecode .running).trans hf
  have cause := firstFault_of_fetchDecode_ok fetched
  rw [State.setRunState_firstFault] at cause
  rw [cause, e, hf]
  by_cases hi : i = .halt
  · subst hi
    exact .inr (.inl ⟨firstInstrFault_halt _, rfl, rfl⟩)
  have running := h.running_of_live hl
  rcases exec_firstInstrFault_cases running (running.fetched_wf fetched) hi with fault | ⟨noCause, committed⟩
  · exact .inl fault
  · exact .inr (.inr ⟨noCause, fun halt => hi (Except.ok.inj halt), committed⟩)

/-- Settles O29: the cases of a step of a live machine; without a cause FAULT stays `NONE`. -/
theorem firstCauseIsTheFaultReported : Obligations.FirstCauseIsTheFaultReported := by
  intro s h hl
  have noFault : s.fault = .none := by
    obtain ⟨-, -, -, -, -, faultIff⟩ := h
    exact faultIff.2 (State.runState_ne_faulted_of_live hl)
  rcases step_cases_of_live h hl with ⟨r, cause, e⟩ | ⟨noCause, -, e⟩ | ⟨noCause, -, w, p, e⟩
  · rw [cause]
    refine ⟨?_, nofun⟩
    rintro _ ⟨⟩
    exact e
  · rw [noCause]
    exact ⟨nofun, fun _ => ⟨_, e, noFault, by simp⟩⟩
  · rw [noCause]
    exact ⟨nofun, fun _ => ⟨_, e, by simpa using noFault, by simp⟩⟩

/-- Settles O30: the cases of a step by run state, those of a live machine against the causes of R305. -/
theorem runStateTransitionsAreTheListedOnes : Obligations.RunStateTransitionsAreTheListedOnes := by
  intro s h
  refine ⟨step_eq_stepAfterFault_iff, fun t ht => ?_, step_next⟩
  cases hl : s.live with
  | false =>
    rcases State.live_eq_false_iff.1 hl with halted | faulted
    · cases (step_halted halted).symm.trans ht
      exact .inl ⟨halted, rfl⟩
    · cases (step_faulted faulted).symm.trans ht
  | true =>
    rcases step_cases_of_live h hl with ⟨r, cause, e⟩ | ⟨-, halt, e⟩ | ⟨noCause, notHalt, w, p, e⟩
    · cases e.symm.trans ht
      exact .inr (.inr (.inr ⟨rfl, rfl, by simp [cause]⟩))
    · cases e.symm.trans ht
      exact .inr (.inr (.inl ⟨rfl, rfl, halt⟩))
    · cases e.symm.trans ht
      exact .inr (.inl ⟨rfl, by simp, noCause, notHalt⟩)

end Sys2Proof.Machine
end

section
/-! SUPPORT. The outcomes of an instruction by its register fields, its write request and the PC advance (R186), and the
word of an instruction as the fields of R74 joined. -/

namespace Sys2Proof.Machine

variable {s : State} {i : Instr}

/-- An instruction with a register field that names no register faults `ADDRESS` (R24); HALT has no such field. -/
theorem exec_of_fieldsInvalid (h : ¬ FieldsValid s i.registerFields) : exec i s = .next (takeFault s .address) := by
  have notHalt : i ≠ .halt := by
    rintro rfl
    exact h nofun
  rw [exec_eq_withRegisters s notHalt, withRegisters_fault h]

/-- After the register check the cycle ends by the instruction's own request (R186). -/
theorem exec_eq_finish (hi : i ≠ .halt) (valid : FieldsValid s i.registerFields) :
    exec i s = finish s (requestOf s i) := by
  rw [exec_eq_withRegisters s hi, withRegisters_valid valid]

theorem exec_of_requestOf_error {r : FaultCause} (hi : i ≠ .halt) (valid : FieldsValid s i.registerFields)
    (hq : requestOf s i = .error r) : exec i s = .next (takeFault s r) := by
  rw [exec_eq_finish hi valid, hq, finish_error]

/-- A request for a register is committed with the advanced PC (R186, R187). -/
theorem exec_of_toReg {d : Int} {v : Word} (hi : i ≠ .halt) (valid : FieldsValid s i.registerFields)
    (hq : requestOf s i = .ok (Writes.toReg d v)) (h : PcAdvances s) :
    exec i s = .next ((s.setReg d.toNat v).setPc s.following) := by
  rw [exec_eq_finish hi valid, hq, finish_ok ((nextPc_toReg s d v).trans (advance_ok h)), commit_toReg]

/-- A request without a target of its own is discarded when the PC cannot advance (R187, R190). -/
theorem exec_of_not_pcAdvances {w : Writes} (hi : i ≠ .halt) (valid : FieldsValid s i.registerFields)
    (hq : requestOf s i = .ok w) (hn : w.next = none) (h : ¬ PcAdvances s) :
    exec i s = .next (takeFault s .overflow) := by
  rw [exec_eq_finish hi valid, hq, finish_pcFault ((nextPc_of_next_eq_none hn).trans (advance_overflow h))]

/-- The word whose fields are the opcode and the operands of an instruction that fits decodes to it (R74, R78). -/
theorem decode_joinFields {width : Nat} {op : Trits} {operands : List Trits} (hW : 9 ≤ width)
    (fitting : i.wf width = true) (hop : op = toTrits i.opcode.code 3)
    (rest : joinFields operands = operandTrits width i) : decode width ⟨joinFields (op :: operands)⟩ = .instr i := by
  have word : (⟨joinFields (op :: operands)⟩ : Word) = encode width i := by
    rw [joinFields, rest, hop, encode_eq_encodeWith, encodeWith]
  rw [word]
  exact (decodeOfEncodeIsTheInstruction width i hW fitting).1

end Sys2Proof.Machine
end

section
/-! SUPPORT. The data transfer instructions (44_data_transfer.md): what each requests, its effect and its faults. -/

namespace Sys2Proof.Machine

variable {s t : State} {a k : Int}

theorem loadiRequest_ok (h : wordFieldFits s.cfg.width k = true) :
    loadiRequest s a k = .ok (Writes.toReg a (Word.ofInt s.cfg.width k)) := by
  rw [loadiRequest, checkedWord_ok (natAbs_le_maxPos_of_fits h (Nat.sub_le ..))]

theorem loadmRequest_ok (h : AddressInRange s k) :
    loadmRequest s a k = .ok (Writes.toReg a (s.memRead k.toNat)) := by
  rw [loadmRequest, effectiveAddress_ok h]

theorem loadmRequest_fault (h : ¬ AddressInRange s k) : loadmRequest s a k = .error .address := by
  rw [loadmRequest, effectiveAddress_fault h]

theorem storeRequest_ok (h : AddressInRange s k) :
    storeRequest s a k = .ok (Writes.toMem k.toNat (s.reg a)) := by
  rw [storeRequest, effectiveAddress_ok h]

theorem storeRequest_fault (h : ¬ AddressInRange s k) : storeRequest s a k = .error .address := by
  rw [storeRequest, effectiveAddress_fault h]

/-- Settles O39: an immediate that fits the field `K` passes the write check of R180, so only the register field and the
PC advance can fault. -/
theorem loadiLoadsTheImmediate : Obligations.LoadiLoadsTheImmediate := by
  refine ⟨fun width a k hW fitting => decode_joinFields hW fitting rfl rfl, ?_, ?_,
    fun _ _ _ invalid => exec_of_fieldsInvalid invalid⟩
  · exact fun s a k hk valid => exec_of_toReg nofun valid (loadiRequest_ok hk)
  · exact fun s a k hk valid => exec_of_not_pcAdvances nofun valid (loadiRequest_ok hk) rfl

/-- Settles O40: the request is the addressed word where the address is valid, and the fault `ADDRESS` otherwise. -/
theorem loadmLoadsTheMemoryWord : Obligations.LoadmLoadsTheMemoryWord := by
  refine ⟨fun width a k hW fitting => decode_joinFields hW fitting rfl rfl, ?_, ?_, ?_,
    fun _ _ _ invalid => exec_of_fieldsInvalid invalid⟩
  · exact fun s a k valid inRange => exec_of_toReg nofun valid (loadmRequest_ok inRange)
  · exact fun s a k valid inRange => exec_of_not_pcAdvances nofun valid (loadmRequest_ok inRange) rfl
  · exact fun s a k valid outside => exec_of_requestOf_error nofun valid (loadmRequest_fault outside)

/-- Settles O41: the request is the register's word where the address is valid, and the fault `ADDRESS` otherwise. -/
theorem storeWritesTheMemoryWord : Obligations.StoreWritesTheMemoryWord := by
  refine ⟨fun width a k hW fitting => decode_joinFields hW fitting rfl rfl, fun _ _ _ => exec_store_ok, ?_, ?_,
    fun _ _ _ invalid => exec_of_fieldsInvalid invalid⟩
  · exact fun s a k valid inRange => exec_of_not_pcAdvances nofun valid (storeRequest_ok inRange) rfl
  · exact fun s a k valid outside => exec_of_requestOf_error nofun valid (storeRequest_fault outside)

/-- Settles O42: the request is the word of `x[B]`, which no check of MOVE's own can refuse. -/
theorem moveCopiesTheRegister : Obligations.MoveCopiesTheRegister := by
  refine ⟨fun width a b hW fitting => decode_joinFields hW fitting rfl rfl, ?_, ?_,
    fun _ _ _ invalid => exec_of_fieldsInvalid invalid⟩
  · exact fun s a b valid => exec_of_toReg nofun valid rfl
  · exact fun s a b valid => exec_of_not_pcAdvances nofun valid rfl rfl

/-- Everything a STORE can leave: the fault `ADDRESS`, or with a valid address the fault of the PC advance or the machine
with that one memory word and the PC written (R216). -/
theorem exec_store_cases (he : exec (.store a k) s = .next t) :
    t = takeFault s .address ∨ (AddressInRange s k ∧
      (t = takeFault s .overflow ∨ t = (s.memWrite k.toNat (s.reg a)).setPc s.following)) := by
  obtain ⟨-, stores, cannotAdvance, outOfRange, noRegister⟩ := storeWritesTheMemoryWord
  by_cases valid : FieldsValid s [a]
  · by_cases inRange : AddressInRange s k
    · by_cases advances : PcAdvances s
      · cases (stores s a k valid inRange advances).symm.trans he
        exact .inr ⟨inRange, .inr rfl⟩
      · cases (cannotAdvance s a k valid inRange advances).symm.trans he
        exact .inr ⟨inRange, .inl rfl⟩
    · cases (outOfRange s a k valid inRange).symm.trans he
      exact .inl rfl
  · cases (noRegister s a k valid).symm.trans he
    exact .inl rfl

/-- A valid address has an effective address, so the error case of R76 does not occur. -/
theorem effectiveAddress_ne_error (h : AddressInRange s k) (r : FaultCause) : effectiveAddress s k ≠ .error r := by
  rw [effectiveAddress_ok h]
  exact nofun

/-- Settles O54: a STORE takes a fault, which writes neither registers nor memory, or writes the word at its effective
address. -/
theorem frameOfStore : Obligations.FrameOfStore := by
  intro a k s t he
  rcases exec_store_cases he with rfl | ⟨inRange, rfl | rfl⟩
  · exact ⟨rfl, rfl, fun _ _ _ _ => rfl, fun _ _ => rfl, .inr (.inl rfl)⟩
  · exact ⟨rfl, rfl, fun _ _ _ _ => rfl, fun r hr => absurd hr (effectiveAddress_ne_error inRange r), .inr (.inr rfl)⟩
  · refine ⟨rfl, rfl, fun ea hea b other => ?_, fun r hr => absurd hr (effectiveAddress_ne_error inRange r),
      .inl ⟨rfl, rfl⟩⟩
    cases (effectiveAddress_ok inRange).symm.trans hea
    exact s.memWrite_memRead_other (s.reg a) other

end Sys2Proof.Machine
end

section
/-! SUPPORT. The units of the arithmetic instructions by value (41_trits.md R124, R126, R129, 42_integer.md R160): a
request of the adder or the multiplier is the register write check of R180 on the exact result, which `Word.add`
and `Word.multiply` perform in the library (R166). -/

namespace Sys2Proof.Machine

section
variable {n : Nat} {x y : Word} (d : Int)

/-- A carry out of the adder is the overflow of its fixed-width sum (R125, R230). -/
theorem adderRequest_eq_checkedWord (hx : x.trits.length = n) (hy : y.trits.length = n) :
    adderRequest d (addw x y .zero) = (checkedWord n (x.int + y.int)).map (Writes.toReg d) := by
  rw [checkedWord, ← Word.add_eq_regWord hx hy, Word.add, adderRequest, adderOverflow]
  by_cases carry : (addw x y .zero).cout = .zero <;> simp [carry, Except.map]

/-- A nonzero high half is the overflow of the fixed-width product (R129, R236). -/
theorem multiplierRequest_eq_checkedWord (hx : x.trits.length = n) :
    multiplierRequest d (mulw x y) = (checkedWord n (x.int * y.int)).map (Writes.toReg d) := by
  rw [checkedWord, ← Word.multiply_eq_regWord hx, Word.multiply, multiplierRequest, multiplierOverflow]
  by_cases small : Trits.isZero (mulw x y).hi = true <;> simp [small, Except.map]

end

end Sys2Proof.Machine

namespace Sys2Proof

/-- The negation of a word of `n` trits, read off trit by trit (R126). -/
theorem negw_eq_map_range {n : Nat} {x : Word} (hx : x.trits.length = n) :
    negw x = ⟨(List.range n).map fun k => (x.trits.getD k .zero).negate⟩ := by
  refine congrArg Word.mk (List.ext_getElem (by simp [hx]) fun k hk _ => ?_)
  have inRange : k < x.trits.length := hk.trans_eq (length_negw x)
  simp [Trits.negate, List.getElem?_eq_getElem inRange]

/-- The sign trit widened to a word of `n` trits is the word of the sign's value (R156, R242). -/
theorem sext_sgnw {n : Nat} (hn : 1 ≤ n) (x : Word) : Word.sext n [sgnw x] = Word.ofInt n x.int.sign := by
  have value : (Word.sext n [sgnw x]).int = x.int.sign := by
    rw [Word.int, Word.sext, Trits.int_sext, Trits.int_cons, Trits.int_nil, mul_zero, add_zero]
    exact Trits.toInt_sign x.trits
  rw [← value, Word.ofInt_int (Word.length_sext n [sgnw x] hn)]

end Sys2Proof
end

section
/-! SUPPORT. The arithmetic instructions (45_arithmetic.md): what each requests, its effect and its faults. -/

namespace Sys2Proof.Machine

variable {s : State}

theorem requestOf_add (h : s.wf) (a b c : Int) : requestOf s (.add a b c) =
    (checkedWord s.cfg.width ((s.reg b).int + (s.reg c).int)).map (Writes.toReg a) :=
  adderRequest_eq_checkedWord a (h.length_reg b) (h.length_reg c)

/-- SUB adds the negation, whose value is the negated value (R126, R233). -/
theorem requestOf_sub (h : s.wf) (a b c : Int) : requestOf s (.sub a b c) =
    (checkedWord s.cfg.width ((s.reg b).int - (s.reg c).int)).map (Writes.toReg a) := by
  rw [sub_eq_add_neg, ← int_negw]
  exact adderRequest_eq_checkedWord a (h.length_reg b) ((length_negw _).trans (h.length_reg c))

theorem requestOf_mul (h : s.wf) (a b c : Int) : requestOf s (.mul a b c) =
    (checkedWord s.cfg.width ((s.reg b).int * (s.reg c).int)).map (Writes.toReg a) :=
  multiplierRequest_eq_checkedWord a (h.length_reg b)

section
variable {i : Instr} {d v : Int} (rule : requestOf s i = (checkedWord s.cfg.width v).map (Writes.toReg d))
include rule

/-- The check of R180 lets a result that fits through as its word. -/
theorem requestOf_of_fitsWord (h : FitsWord s v) : requestOf s i = .ok (Writes.toReg d (Word.ofInt s.cfg.width v)) := by
  rw [rule, checkedWord_ok h, Except.map]

/-- The check of R180 rejects every other result, which R167 forbids to truncate. -/
theorem requestOf_of_not_fitsWord (h : ¬ FitsWord s v) : requestOf s i = .error .overflow := by
  rw [rule, checkedWord_overflow h, Except.map]

end

/-- The effect and the faults of an instruction on three registers whose result is the exact value `op` of its sources
(R167, R245): the part of the obligations about ADD, SUB and MUL that does not depend on the operation. -/
def ExactResultOrFaults (make : Int → Int → Int → Instr) (op : Int → Int → Int) : Prop :=
  (∀ (s : State) (a b c : Int), s.wf → FieldsValid s (make a b c).registerFields →
    FitsWord s (op (s.reg b).int (s.reg c).int) → PcAdvances s → exec (make a b c) s =
      .next ((s.setReg a.toNat (Word.ofInt s.cfg.width (op (s.reg b).int (s.reg c).int))).setPc s.following)) ∧
  (∀ (s : State) (a b c : Int), s.wf → FieldsValid s (make a b c).registerFields →
    ¬ FitsWord s (op (s.reg b).int (s.reg c).int) → exec (make a b c) s = .next (takeFault s .overflow)) ∧
  (∀ (s : State) (a b c : Int), s.wf → FieldsValid s (make a b c).registerFields →
    FitsWord s (op (s.reg b).int (s.reg c).int) → ¬ PcAdvances s →
      exec (make a b c) s = .next (takeFault s .overflow)) ∧
  (∀ (s : State) (a b c : Int), ¬ FieldsValid s (make a b c).registerFields →
    exec (make a b c) s = .next (takeFault s .address))

/-- An instruction that requests the exact result through the check of R180 completes when the result fits and the PC
can advance, and otherwise takes the fault of the check that failed. -/
theorem exactResultOrFaults_of_requestOf {make : Int → Int → Int → Instr} {op : Int → Int → Int}
    (notHalt : ∀ a b c, make a b c ≠ .halt)
    (rule : ∀ {s : State}, s.wf → ∀ a b c, requestOf s (make a b c) =
      (checkedWord s.cfg.width (op (s.reg b).int (s.reg c).int)).map (Writes.toReg a)) :
    ExactResultOrFaults make op := by
  refine ⟨fun s a b c h valid fits => ?completes, fun s a b c h valid large => ?overflows,
    fun s a b c h valid fits => ?cannotAdvance, fun _ _ _ _ invalid => exec_of_fieldsInvalid invalid⟩
  case completes => exact exec_of_toReg (notHalt a b c) valid (requestOf_of_fitsWord (rule h a b c) fits)
  case overflows =>
    exact exec_of_requestOf_error (notHalt a b c) valid (requestOf_of_not_fitsWord (rule h a b c) large)
  case cannotAdvance =>
    exact exec_of_not_pcAdvances (notHalt a b c) valid (requestOf_of_fitsWord (rule h a b c) fits) rfl

/-- Settles O43: the request is the sum through the check of R180. -/
theorem addGivesTheExactSumOrFaults : Obligations.AddGivesTheExactSumOrFaults :=
  ⟨fun _ _ _ _ hW fitting => decode_joinFields hW fitting rfl rfl,
    exactResultOrFaults_of_requestOf (make := .add) (op := (· + ·)) nofun requestOf_add⟩

/-- Settles O44: the request is the difference through the check of R180. -/
theorem subGivesTheExactDifferenceOrFaults : Obligations.SubGivesTheExactDifferenceOrFaults :=
  ⟨fun _ _ _ _ hW fitting => decode_joinFields hW fitting rfl rfl,
    exactResultOrFaults_of_requestOf (make := .sub) (op := (· - ·)) nofun requestOf_sub⟩

/-- Settles O45: the request is the product through the check of R180. -/
theorem mulGivesTheExactProductOrFaults : Obligations.MulGivesTheExactProductOrFaults :=
  ⟨fun _ _ _ _ hW fitting => decode_joinFields hW fitting rfl rfl,
    exactResultOrFaults_of_requestOf (make := .mul) (op := (· * ·)) nofun requestOf_mul⟩

/-- Settles O46: NEG requests the negated word, with no check of its own. -/
theorem negNegatesEveryTrit : Obligations.NegNegatesEveryTrit := by
  refine ⟨fun width a b hW fitting => decode_joinFields hW fitting rfl rfl, fun s a b h valid advances => ?_,
    fun s a b valid => exec_of_not_pcAdvances nofun valid rfl rfl, fun _ _ _ invalid => exec_of_fieldsInvalid invalid⟩
  rw [← negw_eq_map_range (h.length_reg b)]
  exact exec_of_toReg nofun valid rfl advances

/-- Settles O47: SGN requests the widened sign trit, with no check of its own. -/
theorem sgnWritesTheSign : Obligations.SgnWritesTheSign := by
  refine ⟨fun width a b hW fitting => decode_joinFields hW fitting rfl rfl, fun s a b h valid advances => ?_,
    fun s a b valid => exec_of_not_pcAdvances nofun valid rfl rfl, fun _ _ _ invalid => exec_of_fieldsInvalid invalid⟩
  rw [← sext_sgnw (Nat.le_trans (by decide) h.nine_le_width)]
  exact exec_of_toReg nofun valid rfl advances

end Sys2Proof.Machine
end

section
/-! SUPPORT. The word gates (46_logic.md, 41_trits.md R131): a gate acts at each position on the operands' trits there,
and by value it is the minimum, the maximum or the negation, so that the laws of R110 hold on words as those of `min` and
`max` on the integers (R258). -/

namespace Sys2Proof

section
variable (a b c : Word)

@[simp] theorem length_notw : (notw a).trits.length = a.trits.length := length_negw a

@[simp] theorem toInt_getElem_andw {i : Nat} (h : i < (andw a b).trits.length) :
    (andw a b).trits[i].toInt = min
      (a.trits[i]'(List.lt_length_left_of_zipWith h)).toInt (b.trits[i]'(List.lt_length_right_of_zipWith h)).toInt := by
  simp [andw]

@[simp] theorem toInt_getElem_orw {i : Nat} (h : i < (orw a b).trits.length) :
    (orw a b).trits[i].toInt = max
      (a.trits[i]'(List.lt_length_left_of_zipWith h)).toInt (b.trits[i]'(List.lt_length_right_of_zipWith h)).toInt := by
  simp [orw]

@[simp] theorem toInt_getElem_notw {i : Nat} (h : i < (notw a).trits.length) :
    (notw a).trits[i].toInt = -(a.trits[i]'(h.trans_eq (length_notw a))).toInt := by
  simp [notw, negw, Trits.negate]

/-- Words of one length are equal when their trits have the same value at every position. -/
theorem Word.ext_toInt {x y : Word} (length : x.trits.length = y.trits.length)
    (values : ∀ (i : Nat) (hx : i < x.trits.length) (hy : i < y.trits.length), x.trits[i].toInt = y.trits[i].toInt) :
    x = y :=
  congrArg Word.mk (List.ext_getElem length fun i hx hy => Trit.toInt_injective (values i hx hy))

theorem andw_comm : andw a b = andw b a :=
  Word.ext_toInt (by simp only [length_andw, min_comm]) fun i _ _ => by simp only [toInt_getElem_andw, min_comm]

theorem orw_comm : orw a b = orw b a :=
  Word.ext_toInt (by simp only [length_orw, min_comm]) fun i _ _ => by simp only [toInt_getElem_orw, max_comm]

theorem andw_assoc : andw (andw a b) c = andw a (andw b c) :=
  Word.ext_toInt (by simp only [length_andw, min_assoc]) fun i _ _ => by simp only [toInt_getElem_andw, min_assoc]

theorem orw_assoc : orw (orw a b) c = orw a (orw b c) :=
  Word.ext_toInt (by simp only [length_orw, min_assoc]) fun i _ _ => by simp only [toInt_getElem_orw, max_assoc]

theorem andw_self : andw a a = a :=
  Word.ext_toInt (by simp only [length_andw, min_self]) fun i _ _ => by simp only [toInt_getElem_andw, min_self]

theorem orw_self : orw a a = a :=
  Word.ext_toInt (by simp only [length_orw, min_self]) fun i _ _ => by simp only [toInt_getElem_orw, max_self]

theorem andw_orw_distrib_left : andw a (orw b c) = orw (andw a b) (andw a c) :=
  Word.ext_toInt (by simp only [length_andw, length_orw]; omega) fun i _ _ => by
    simp only [toInt_getElem_andw, toInt_getElem_orw, min_max_distrib_left]

theorem orw_andw_distrib_left : orw a (andw b c) = andw (orw a b) (orw a c) :=
  Word.ext_toInt (by simp only [length_andw, length_orw]; omega) fun i _ _ => by
    simp only [toInt_getElem_andw, toInt_getElem_orw, max_min_distrib_left]

theorem notw_andw : notw (andw a b) = orw (notw a) (notw b) :=
  Word.ext_toInt (by simp only [length_notw, length_andw, length_orw]) fun i _ _ => by
    simp only [toInt_getElem_notw, toInt_getElem_andw, toInt_getElem_orw, max_neg_neg]

theorem notw_orw : notw (orw a b) = andw (notw a) (notw b) :=
  Word.ext_toInt (by simp only [length_notw, length_andw, length_orw]) fun i _ _ => by
    simp only [toInt_getElem_notw, toInt_getElem_andw, toInt_getElem_orw, min_neg_neg]

end

section
variable {n : Nat} {a b : Word} (ha : a.trits.length = n)
include ha

/-- No trit is above POSITIVE. -/
theorem andw_positive : andw a ⟨List.replicate n .positive⟩ = a :=
  Word.ext_toInt (by simp [length_andw, ha]) fun i _ _ => by
    rw [toInt_getElem_andw, List.getElem_replicate]
    exact min_eq_left (Trit.toInt_bounds _).2

/-- No trit is below NEGATIVE. -/
theorem orw_negative : orw a ⟨List.replicate n .negative⟩ = a :=
  Word.ext_toInt (by simp [length_orw, ha]) fun i _ _ => by
    rw [toInt_getElem_orw, List.getElem_replicate]
    exact max_eq_left (Trit.toInt_bounds _).1

end

section
variable {n : Nat} {x y : Trits} (hx : x.length = n) (hy : y.length = n) (f : Trit → Trit → Trit)
include hx hy

/-- A position-wise operation on sequences of one length acts at each position on the operands' trits there. -/
theorem Trits.getD_zipWith {i : Nat} (hi : i < n) :
    (List.zipWith f x y).getD i .zero = f (x.getD i .zero) (y.getD i .zero) := by
  simp [hx, hy, hi]

/-- The result of a position-wise operation, read off position by position. -/
theorem Trits.zipWith_eq_map_range :
    List.zipWith f x y = (List.range n).map fun k => f (x.getD k .zero) (y.getD k .zero) := by
  refine List.ext_getElem (by simp [hx, hy]) fun k hk _ => ?_
  have inRange : k < n := by simpa [hx, hy] using hk
  rw [List.getElem_map, List.getElem_range, ← Trits.getD_zipWith hx hy f inRange, List.getD_eq_getElem _ _ hk]

end

section
variable {n : Nat} {x y : Word} (hx : x.trits.length = n) (hy : y.trits.length = n)
include hx hy

/-- ANDW read off trit by trit (R131, R250). -/
theorem andw_eq_map_range : andw x y = ⟨(List.range n).map fun k =>
    Trit.ofSign (min (x.trits.getD k .zero).toInt (y.trits.getD k .zero).toInt)⟩ := by
  simp only [andw, Trits.zipWith_eq_map_range hx hy, ← Trit.and_toInt, Trit.ofSign_toInt]

/-- ORW read off trit by trit (R131, R253). -/
theorem orw_eq_map_range : orw x y = ⟨(List.range n).map fun k =>
    Trit.ofSign (max (x.trits.getD k .zero).toInt (y.trits.getD k .zero).toInt)⟩ := by
  simp only [orw, Trits.zipWith_eq_map_range hx hy, ← Trit.or_toInt, Trit.ofSign_toInt]

end

/-- Settles O18: every law is the law of `min`, `max` and the negation at each position. -/
theorem wordGateLawsHold : Obligations.WordGateLawsHold := fun _ a b c ha hb _ =>
  ⟨andw_comm a b, orw_comm a b, andw_assoc a b c, orw_assoc a b c, andw_self a, orw_self a,
    andw_orw_distrib_left a b c, orw_andw_distrib_left a b c, notw_andw a b, notw_orw a b,
    andw_positive ha, orw_negative ha, rfl,
    fun _ hi => ⟨Trits.getD_zipWith ha hb Trit.and hi, Trits.getD_zipWith ha hb Trit.or hi⟩⟩

end Sys2Proof
end

section
/-! SUPPORT. The logic instructions (46_logic.md): what each requests, its effect and its faults. -/

namespace Sys2Proof.Machine

/-- Settles O48: AND requests the word of the minima, with no check of its own. -/
theorem andIsMinAtEveryTrit : Obligations.AndIsMinAtEveryTrit := by
  refine ⟨fun width a b c hW fitting => decode_joinFields hW fitting rfl rfl, fun s a b c h valid advances => ?_,
    fun s a b c valid => exec_of_not_pcAdvances nofun valid rfl rfl, fun _ _ _ _ invalid => exec_of_fieldsInvalid invalid⟩
  rw [← andw_eq_map_range (h.length_reg b) (h.length_reg c)]
  exact exec_of_toReg nofun valid rfl advances

/-- Settles O49: OR requests the word of the maxima, with no check of its own. -/
theorem orIsMaxAtEveryTrit : Obligations.OrIsMaxAtEveryTrit := by
  refine ⟨fun width a b c hW fitting => decode_joinFields hW fitting rfl rfl, fun s a b c h valid advances => ?_,
    fun s a b c valid => exec_of_not_pcAdvances nofun valid rfl rfl, fun _ _ _ _ invalid => exec_of_fieldsInvalid invalid⟩
  rw [← orw_eq_map_range (h.length_reg b) (h.length_reg c)]
  exact exec_of_toReg nofun valid rfl advances

end Sys2Proof.Machine
end

section
/-! SUPPORT. The words of JMP and HALT whose must-be-zero field is not zero (R79, R80), the all-zero word,
and the value of a jump's target word (R76). -/

namespace Sys2Proof

theorem decode_eq_nonzeroField {width : Nat} {w : Word} {op : Opcode} (hop : Trits.int (fieldOp width w) = op.code)
    (hz : ¬ mustBeZero width w op.format = true) : decode width w = .invalid .nonzeroField := by
  rw [decode, hop, Opcode.ofCode_code]
  exact if_neg hz

theorem Trits.concat_zeros (m n : Nat) : Trits.concat (Trits.zeros m) (Trits.zeros n) = Trits.zeros (m + n) := by
  rw [Trits.concat_eq, Trits.zeros, Trits.zeros, List.replicate_append_replicate, Nat.add_comm, Trits.zeros]

/-- The all-zero word as the fields OP and ZN of format N (R74). -/
theorem Trits.concat_zeros_halt {width : Nat} (hW : 9 ≤ width) :
    Trits.concat (Trits.zeros 3) (Trits.zeros (width - 3)) = Trits.zeros width := by
  rw [Trits.concat_zeros, Nat.add_sub_cancel' (by omega)]

@[simp] theorem Word.int_ofInt (n : Nat) (v : Int) : (Word.ofInt n v).int = v := int_toTrits v n

theorem decode_zero {width : Nat} (hW : 9 ≤ width) : decode width (Word.zero width) = .instr .halt := by
  rw [Word.zero, ← Trits.concat_zeros_halt hW]
  exact Machine.decode_joinFields (i := .halt) (operands := [Trits.zeros (width - 3)]) hW rfl rfl rfl

/-- With OP = 000 the field ZN is all that tells a word from `0^W` (R266). -/
theorem decode_of_fieldOp_zeros {width : Nat} {w : Word} (hW : 9 ≤ width) (hw : w.trits.length = width)
    (hop : fieldOp width w = Trits.zeros 3) (nonzero : w ≠ Word.zero width) :
    decode width w = .invalid .nonzeroField := by
  refine decode_eq_nonzeroField (op := .halt) (by rw [hop]; rfl) fun zn => nonzero ?_
  have low := (mustBeZero_n_iff hW hw).1 zn
  have joined := concat_fieldOp hW hw
  rw [hop, low, Trits.concat_zeros_halt hW] at joined
  rw [Word.zero, joined]

/-- A JMP word whose field ZA is not zero is Invalid (R80, R260). -/
theorem decode_jmp_of_nonzero {width : Nat} {z rest : Trits} (hW : 9 ≤ width) (hz : z.length = 2)
    (hr : rest.length = width - 5) (nonzero : z ≠ Trits.zeros 2) :
    decode width (encodeWith .jmp (Trits.concat z rest)) = .invalid .nonzeroField := by
  have below : (Trits.concat z rest).length = width - 3 := by
    rw [Trits.length_concat]
    omega
  obtain ⟨hw, hop, low⟩ := fields_encodeWith hW .jmp below
  obtain ⟨za, -⟩ := fieldA_of_join hW hw low hr
  refine decode_eq_nonzeroField (op := .jmp) (by rw [hop, int_toTrits]) fun zero => nonzero ?_
  rw [← za, (mustBeZero_j_iff hW hw).1 zero]

end Sys2Proof
end

section
/-! SUPPORT. The control instructions (47_control.md): what each requests, its effect, its faults and its frame, and the
fetch from a target that is no address. -/

namespace Sys2Proof.Machine

variable {s t : State} {i : Instr}

theorem exec_of_toPc {p : Word} (hi : i ≠ .halt) (valid : FieldsValid s i.registerFields)
    (hq : requestOf s i = .ok (Writes.toPc p)) : exec i s = .next (s.setPc p) := by
  rw [exec_eq_finish hi valid, hq, finish_ok (nextPc_toPc s p), commit_toPc]

theorem exec_of_nothing (hi : i ≠ .halt) (valid : FieldsValid s i.registerFields)
    (hq : requestOf s i = .ok Writes.nothing) (h : PcAdvances s) : exec i s = .next (s.setPc s.following) := by
  rw [exec_eq_finish hi valid, hq, finish_ok ((nextPc_nothing s).trans (advance_ok h)), commit_nothing]

theorem jsRequest_taken {a k : Int} {c : Trit} (h : (s.reg a).int.sign = c.toInt) :
    jsRequest s a c k = jumpRequest s k :=
  if_pos ((signCondition_iff _ c).2 h)

theorem jsRequest_notTaken {a k : Int} {c : Trit} (h : (s.reg a).int.sign ≠ c.toInt) :
    jsRequest s a c k = .ok Writes.nothing :=
  if_neg (mt (signCondition_iff _ c).1 h)

theorem fetchDecode_outside (h : ¬ AddressInRange s s.pc.int) : fetchDecode s = .error .address :=
  if_neg (mt (addressValid_iff s _).1 h)

theorem step_outside (outside : ¬ AddressInRange s s.pc.int) (running : s.runState = .running) :
    step s = .next (takeFault s .address) := by
  rw [step_running running, cycle, fetchDecode_outside outside]

/-- After a jump to a target that is no address, the next fetch faults `ADDRESS` at that target (R260, R301). -/
theorem step_of_bad_target {k : Int} (outside : ¬ AddressInRange s k) (running : s.runState = .running) :
    step (s.setPc (Word.ofInt s.cfg.width k)) = .next (takeFault (s.setPc (Word.ofInt s.cfg.width k)) .address) := by
  refine step_outside (fun inRange => outside ?_) running
  rwa [State.setPc_pc, Word.int_ofInt] at inRange

/-- Settles O50: a target that fits the field `K` fits in a word, and JMP has no register field or PC advance that could
fault. -/
theorem jmpGoesToItsTarget : Obligations.JmpGoesToItsTarget := by
  refine ⟨fun width k hW fitting => decode_joinFields hW fitting rfl rfl, ?_, ?_, fun _ _ _ => step_of_bad_target⟩
  · intro width z k hW fitting hz nonzero
    exact decode_jmp_of_nonzero hW hz (length_toTrits fitting) nonzero
  · exact fun s k hk => exec_of_toPc nofun nofun (jumpRequest_ok (natAbs_le_maxPos_of_fits hk (Nat.sub_le ..)))

/-- Settles O51: the rule of JS is that of JMP when the sign matches, and otherwise requests only the PC advance. -/
theorem jsJumpsWhenTheSignMatches : Obligations.JsJumpsWhenTheSignMatches := by
  refine ⟨fun width a c k hW fitting => decode_joinFields hW fitting rfl rfl, ?_, ?_, ?_,
    fun _ _ _ _ invalid => exec_of_fieldsInvalid invalid, fun _ _ _ => step_of_bad_target⟩
  · intro s a c k _ hk valid taken
    have target := jumpRequest_ok (natAbs_le_maxPos_of_fits hk (Nat.sub_le ..))
    exact exec_of_toPc nofun valid ((jsRequest_taken taken).trans target)
  · exact fun s a c k valid notTaken => exec_of_nothing nofun valid (jsRequest_notTaken notTaken)
  · exact fun s a c k valid notTaken => exec_of_not_pcAdvances nofun valid (jsRequest_notTaken notTaken) rfl

/-- Settles O52: HALT only sets RUNSTATE, and a fetch of the all-zero word runs it. -/
theorem haltStopsAndKeepsEverything : Obligations.HaltStopsAndKeepsEverything := by
  refine ⟨fun _ => decode_zero, fun _ _ => decode_of_fieldOp_zeros, exec_halt, ?_⟩
  intro s running inRange hW zero
  have fetched : fetchDecode s = .ok .halt := fetchDecode_ok inRange (by rw [zero, decode_zero hW])
  rw [step_running running, cycle_of_fetchDecode_ok fetched]
  exact exec_halt s

/-- The instructions that can redirect the PC (R260, R263). -/
abbrev IsJump (i : Instr) : Prop := (∃ k, i = .jmp k) ∨ ∃ a c k, i = .js a c k

theorem IsJump.ne_halt (h : IsJump i) : i ≠ .halt := by
  rcases h with ⟨k, rfl⟩ | ⟨a, c, k, rfl⟩ <;> exact nofun

theorem jumpRequest_overflow_or_toPc (s : State) (k : Int) :
    jumpRequest s k = .error .overflow ∨ ∃ p, jumpRequest s k = .ok (Writes.toPc p) := by
  rcases jumpRequest_cases s k with ⟨-, e⟩ | ⟨-, e⟩
  · exact .inr ⟨_, e⟩
  · exact .inl e

/-- A jump requests only the PC advance or a write of the PC, or faults `OVERFLOW` on a target that fits in no word. -/
theorem requestOf_cases_of_isJump (s : State) (h : IsJump i) :
    requestOf s i = .ok Writes.nothing ∨ requestOf s i = .error .overflow ∨
      ∃ p, requestOf s i = .ok (Writes.toPc p) := by
  rcases h with ⟨k, rfl⟩ | ⟨a, c, k, rfl⟩
  · exact .inr (jumpRequest_overflow_or_toPc s k)
  · rcases jsRequest_cases s a c k with e | e
    · rw [requestOf, e]
      exact .inr (jumpRequest_overflow_or_toPc s k)
    · exact .inl e

/-- Everything a jump can leave: a fault, or the machine with the PC written (R260, R263). -/
theorem exec_cases_of_isJump (h : IsJump i) (he : exec i s = .next t) :
    t = takeFault s .address ∨ t = takeFault s .overflow ∨ ∃ p, t = s.setPc p := by
  by_cases valid : FieldsValid s i.registerFields
  · rcases requestOf_cases_of_isJump s h with e | e | ⟨p, e⟩
    · by_cases advances : PcAdvances s
      · cases (exec_of_nothing h.ne_halt valid e advances).symm.trans he
        exact .inr (.inr ⟨_, rfl⟩)
      · cases (exec_of_not_pcAdvances h.ne_halt valid e rfl advances).symm.trans he
        exact .inr (.inl rfl)
    · cases (exec_of_requestOf_error h.ne_halt valid e).symm.trans he
      exact .inr (.inl rfl)
    · cases (exec_of_toPc h.ne_halt valid e).symm.trans he
      exact .inr (.inr ⟨p, rfl⟩)
  · cases (exec_of_fieldsInvalid valid).symm.trans he
    exact .inl rfl

/-- Settles O55: HALT writes only RUNSTATE, and a jump takes a fault or writes only the PC. -/
theorem frameOfControlInstructions : Obligations.FrameOfControlInstructions := by
  refine fun s t => ⟨fun he => ?_, fun i jump he => ?_⟩
  · cases (exec_halt s).symm.trans he
    exact ⟨rfl, rfl, rfl, rfl, fun _ => rfl⟩
  · rcases exec_cases_of_isJump jump he with rfl | rfl | ⟨p, rfl⟩
    · exact ⟨rfl, rfl, fun _ => rfl, .inr (.inl rfl)⟩
    · exact ⟨rfl, rfl, fun _ => rfl, .inr (.inr rfl)⟩
    · exact ⟨rfl, rfl, fun _ => rfl, .inl ⟨rfl, rfl⟩⟩

end Sys2Proof.Machine
end
